-- ==== Sys2Proof/Word.lean ====
section
/-! DEFINITION. The value types of the block (spec/00_scope.md R8, R11): every value is unsigned and bit 0 is its
least significant bit. -/

namespace Sys2Proof

/-- The machine word, `WORD_BITS = 32` (R8): a command word, a ROM word, the `IDLE` word. -/
abbrev Word := BitVec 32

/-- A 24-bit colour or mask, `COLOR_BITS = 24` (R8); green is bits 23:16, red 15:8, blue 7:0 (R53). -/
abbrev Color := BitVec 24

/-- A ROM word index as `SPC` and the branch targets hold it, 5 bits (R23, R71). -/
abbrev Index := BitVec 5

/-- A count of unit delays as UDELAY holds it, 8 bits (R71). -/
abbrev Units := BitVec 8

end Sys2Proof
end

