-- ==== Sys2Proof/Syntax.lean ====
section
/-! DEFINITION. The sixteen operations of the block, one constructor a row of spec/opcode_table.json
(spec/30_encoding.md R73). Three are commands, which HOST presents on the command port, and thirteen are sequencer
operations, which stand in the ROM (R74). -/

namespace Sys2Proof

/-- One operation, its operand as the word holds it (R71, R72): unsigned, unscaled, absolute. -/
inductive Instr where
  /-- START `color`: spec/40_commands.md R91. -/
  | start (color : Color)
  /-- SETIDLE `color`: R92. -/
  | setIdle (color : Color)
  /-- TRANSMIT `color`: R93. -/
  | transmit (color : Color)
  /-- NOP: spec/41_sequencer.md R103. -/
  | nop
  /-- UDELAY `k`: R104. -/
  | udelay (k : Units)
  /-- PINHI: R105. -/
  | pinHi
  /-- PINLO: R106. -/
  | pinLo
  /-- IRQSAVE: R107. -/
  | irqSave
  /-- IRQREST: R108. -/
  | irqRest
  /-- LDMASK: R109. -/
  | ldMask
  /-- TST: R110. -/
  | tst
  /-- SHR: R111. -/
  | shr
  /-- B `target`: R112. -/
  | b (target : Index)
  /-- BF `target`: R113. -/
  | bf (target : Index)
  /-- BNZ `target`: R114. -/
  | bnz (target : Index)
  /-- RET: R115. -/
  | ret
  deriving DecidableEq, Repr

/-- The class of an operation (R74): a command word is legal only on the command port, any other only in the ROM. -/
def Instr.isCommand : Instr → Bool
  | .start _ | .setIdle _ | .transmit _ => true
  | .nop | .udelay _ | .pinHi | .pinLo | .irqSave | .irqRest | .ldMask | .tst | .shr => false
  | .b _ | .bf _ | .bnz _ | .ret => false

end Sys2Proof
end

