-- ==== Sys2Proof/WellFormed.lean ====
section
/-! DEFINITION. When an operation of the syntax is one the block has: a branch target is a ROM word index, 0 to 16
(spec/30_encoding.md R71, R77; spec/20_memory.md R55). Every colour and every count of units is legal (R72). -/

namespace Sys2Proof

/-- A target is one of the 17 ROM indices; 17 to 31 are reserved (R77). -/
def targetLegal (target : Index) : Bool := decide (target.toNat ≤ 16)

/-- The operation is a legal one. -/
def Instr.wellFormed : Instr → Bool
  | .start _ | .setIdle _ | .transmit _ => true
  | .nop | .udelay _ | .pinHi | .pinLo | .irqSave | .irqRest | .ldMask | .tst | .shr | .ret => true
  | .b target | .bf target | .bnz target => targetLegal target

/-- `wellFormed` as a proposition. -/
abbrev Instr.WellFormed (i : Instr) : Prop := i.wellFormed = true

end Sys2Proof
end

