-- ==== Sys2Proof/Decode.lean ====
section
/-! DEFINITION. The decoder, total on every 32-bit word, and the encoder (spec/30_encoding.md). Both are written from
format `W` (R71): bits 31:24 are `op`, bits 23:0 are `imm`, with `color` 23:0, `k` 7:0 and `target` 4:0. -/

namespace Sys2Proof

/-- Why a word spells no operation; each is the spec's `IllegalCommand`. -/
inductive DecodeError where
  /-- `op` is not in the opcode map (R76). -/
  | reservedOpcode (op : BitVec 8)
  /-- A must-be-zero bit is 1 (R77). -/
  | reservedBits (op : BitVec 8)
  /-- A branch target is 17 to 31 (R77). -/
  | reservedTarget (target : Index)
  /-- A sequencer word on the command port, or a command word in the ROM (R74). -/
  | wrongPlace
  deriving DecidableEq, Repr

/-- `op`, bits 31:24 (R71). -/
def opField (w : Word) : BitVec 8 := w.extractLsb' 24 8
/-- `imm`, and `color`, bits 23:0. -/
def colorField (w : Word) : Color := w.extractLsb' 0 24
/-- `k`, bits 7:0. -/
def unitsField (w : Word) : Units := w.extractLsb' 0 8
/-- `target`, bits 4:0. -/
def targetField (w : Word) : Index := w.extractLsb' 0 5

/-- An operation with no operand: all 24 bits of `imm` must be 0. -/
def decodeBare (i : Instr) (w : Word) : Except DecodeError Instr :=
  if w.extractLsb' 0 24 = 0#24 then .ok i else .error (.reservedBits (opField w))

/-- UDELAY: bits 23:8 must be 0. -/
def decodeUnits (f : Units → Instr) (w : Word) : Except DecodeError Instr :=
  if w.extractLsb' 8 16 = 0#16 then .ok (f (unitsField w)) else .error (.reservedBits (opField w))

/-- B, BF, BNZ: bits 23:5 must be 0 and the target a ROM index. -/
def decodeTarget (f : Index → Instr) (w : Word) : Except DecodeError Instr :=
  if w.extractLsb' 5 19 = 0#19 then
    if targetLegal (targetField w) then .ok (f (targetField w)) else .error (.reservedTarget (targetField w))
  else .error (.reservedBits (opField w))

/-- The general decoder: the opcode map of R73 with the reserved space of R76 and R77 rejected by name. -/
def decode (w : Word) : Except DecodeError Instr :=
  if opField w = 0x01#8 then .ok (.start (colorField w))
  else if opField w = 0x02#8 then .ok (.setIdle (colorField w))
  else if opField w = 0x03#8 then .ok (.transmit (colorField w))
  else if opField w = 0x10#8 then decodeBare .nop w
  else if opField w = 0x11#8 then decodeUnits .udelay w
  else if opField w = 0x12#8 then decodeBare .pinHi w
  else if opField w = 0x13#8 then decodeBare .pinLo w
  else if opField w = 0x14#8 then decodeBare .irqSave w
  else if opField w = 0x15#8 then decodeBare .irqRest w
  else if opField w = 0x16#8 then decodeBare .ldMask w
  else if opField w = 0x17#8 then decodeBare .tst w
  else if opField w = 0x18#8 then decodeBare .shr w
  else if opField w = 0x19#8 then decodeTarget .b w
  else if opField w = 0x1A#8 then decodeTarget .bf w
  else if opField w = 0x1B#8 then decodeTarget .bnz w
  else if opField w = 0x1C#8 then decodeBare .ret w
  else .error (.reservedOpcode (opField w))

/-- Keep a decoded operation only where its class is legal (R74). -/
def onlyClass (command : Bool) : Except DecodeError Instr → Except DecodeError Instr
  | .ok i => if i.isCommand = command then .ok i else .error .wrongPlace
  | .error e => .error e

/-- Decoding a word on the command port (R75). -/
def decodeCommand (w : Word) : Except DecodeError Instr := onlyClass true (decode w)

/-- Decoding a ROM word (R73, R75's last paragraph). -/
def decodeRom (w : Word) : Except DecodeError Instr := onlyClass false (decode w)

/-- The word whose bits, numbered as spec/opcode_table.json numbers them, are `w`, every bit from `nbits` on 0. The
block has no byte order and a word is moved whole (spec/20_memory.md R54), so nothing is laid out in bytes. -/
def wordOfBits (nbits w : Nat) : Word := BitVec.ofNat 32 (w % 2 ^ nbits)

/-- What the decoder reads from an operation given by its bits. Every operation is one 32-bit word (R70), so a number
with a bit beyond bit 31 is none. -/
def decodeTableWord (nbits w : Nat) : Option Instr :=
  if w % 2 ^ nbits < 2 ^ 32 then
    match decode (wordOfBits nbits w) with
    | .ok i => some i
    | .error _ => none
  else none

/-- Format `W`: `op` in bits 31:24 over `imm` in bits 23:0 (R71). -/
def formatW (op : BitVec 8) (imm : BitVec 24) : Word := op ++ imm
/-- A word with no operand: all of `imm` is 0. -/
def encodeBare (op : BitVec 8) : Word := formatW op 0#24
/-- A word with a colour in bits 23:0. -/
def encodeColor (op : BitVec 8) (color : Color) : Word := formatW op color
/-- A word with a count of units in bits 7:0 under zeros. -/
def encodeUnits (op : BitVec 8) (k : Units) : Word := formatW op (k.zeroExtend 24)
/-- A word with a target in bits 4:0 under zeros. -/
def encodeTarget (op : BitVec 8) (target : Index) : Word := formatW op (target.zeroExtend 24)

/-- The word of an operation (R71, R73). -/
def encode : Instr → Word
  | .start color => encodeColor 0x01#8 color
  | .setIdle color => encodeColor 0x02#8 color
  | .transmit color => encodeColor 0x03#8 color
  | .nop => encodeBare 0x10#8
  | .udelay k => encodeUnits 0x11#8 k
  | .pinHi => encodeBare 0x12#8
  | .pinLo => encodeBare 0x13#8
  | .irqSave => encodeBare 0x14#8
  | .irqRest => encodeBare 0x15#8
  | .ldMask => encodeBare 0x16#8
  | .tst => encodeBare 0x17#8
  | .shr => encodeBare 0x18#8
  | .b target => encodeTarget 0x19#8 target
  | .bf target => encodeTarget 0x1A#8 target
  | .bnz target => encodeTarget 0x1B#8 target
  | .ret => encodeBare 0x1C#8

/-- A row of the opcode map: a word `w` is the row's operation exactly when `w & mask = pattern` (R73). -/
structure OpRow where
  mnemonic : String
  pattern : Word
  mask : Word
  deriving DecidableEq, Repr

/-- The sixteen rows of R73. -/
def opcodeMap : List OpRow :=
  [⟨"START", 0x01000000#32, 0xFF000000#32⟩, ⟨"SETIDLE", 0x02000000#32, 0xFF000000#32⟩,
   ⟨"TRANSMIT", 0x03000000#32, 0xFF000000#32⟩, ⟨"NOP", 0x10000000#32, 0xFFFFFFFF#32⟩,
   ⟨"UDELAY", 0x11000000#32, 0xFFFFFF00#32⟩, ⟨"PINHI", 0x12000000#32, 0xFFFFFFFF#32⟩,
   ⟨"PINLO", 0x13000000#32, 0xFFFFFFFF#32⟩, ⟨"IRQSAVE", 0x14000000#32, 0xFFFFFFFF#32⟩] ++
  [⟨"IRQREST", 0x15000000#32, 0xFFFFFFFF#32⟩, ⟨"LDMASK", 0x16000000#32, 0xFFFFFFFF#32⟩,
   ⟨"TST", 0x17000000#32, 0xFFFFFFFF#32⟩, ⟨"SHR", 0x18000000#32, 0xFFFFFFFF#32⟩,
   ⟨"B", 0x19000000#32, 0xFFFFFFE0#32⟩, ⟨"BF", 0x1A000000#32, 0xFFFFFFE0#32⟩,
   ⟨"BNZ", 0x1B000000#32, 0xFFFFFFE0#32⟩, ⟨"RET", 0x1C000000#32, 0xFFFFFFFF#32⟩]

/-- The row of an operation, as its index in `opcodeMap`. -/
def Instr.rowIndex : Instr → Nat
  | .start _ => 0
  | .setIdle _ => 1
  | .transmit _ => 2
  | .nop => 3
  | .udelay _ => 4
  | .pinHi => 5
  | .pinLo => 6
  | .irqSave => 7
  | .irqRest => 8
  | .ldMask => 9
  | .tst => 10
  | .shr => 11
  | .b _ => 12
  | .bf _ => 13
  | .bnz _ => 14
  | .ret => 15

/-- The row of an operation. -/
def Instr.row (i : Instr) : OpRow := opcodeMap.getD i.rowIndex ⟨"", 0#32, 0#32⟩

end Sys2Proof
end

