-- ==== Sys2Proof/Config.lean ====
section
/-! DEFINITION. What an implementation fixes (spec/00_scope.md R8, R9; spec/70_reset_and_hazards.md R176) and the
free values of the model. An `OPEN` parameter of the spec is an opaque constant: nothing can be proved of it beyond the
constraint R9 states, which is built into the definition over it, and every value the constraint admits is a value of
that definition. -/

namespace Sys2Proof

/-- `CLK` (R9): the two supported CPU speeds, selected at build time. -/
inductive Clk where
  | clkA
  | clkB
  deriving DecidableEq, Repr, Inhabited

namespace Config

/-! Fixed constants (R8). -/

/-- `NBITS`: bit-transmissions of one transmission. -/
def nBits : Nat := 24
/-- `MSB_MASK`: the first mask, bit 23 set. -/
def msbMask : Color := 0x800000#24
/-- `WHITE`: the flash colour. -/
def white : Color := 0xFFFFFF#24
/-- `BLACK`: the idle colour after reset. -/
def black : Color := 0x000000#24
/-- `ROM_LEN`: words of the sequencer program. -/
def romLen : Nat := 17
/-- `T1H_NS`: target of the long-high hold, in nanoseconds. -/
def t1hNs : Nat := 700
/-- `T1L_NS`: target of the short-low hold. -/
def t1lNs : Nat := 600
/-- `T0H_NS`: target of the short-high hold. -/
def t0hNs : Nat := 350
/-- `T0L_NS`: target of the long-low hold. -/
def t0lNs : Nat := 800
/-- `UNIT_NS` (R10): the unit delay, the greatest common divisor of the four targets. -/
def unitNs : Nat := Nat.gcd (Nat.gcd t1hNs t1lNs) (Nat.gcd t0hNs t0lNs)
/-- `K1H`: units in the long-high hold. -/
def k1h : Nat := t1hNs / unitNs
/-- `K1L`: units in the short-low hold. -/
def k1l : Nat := t1lNs / unitNs
/-- `K0H`: units in the short-high hold. -/
def k0h : Nat := t0hNs / unitNs
/-- `K0L`: units in the long-low hold. -/
def k0l : Nat := t0lNs / unitNs

/-! The bands of spec/70_reset_and_hazards.md R175, in nanoseconds, lowest and highest. No step uses them: they bound
real durations, of which the model says nothing (R180). -/

/-- The long-high hold. -/
def band1h : Nat × Nat := (550, 850)
/-- The short-low hold. -/
def band1l : Nat × Nat := (450, 750)
/-- The short-high hold. -/
def band0h : Nat × Nat := (35, 500)
/-- The long-low hold. -/
def band0l : Nat × Nat := (650, 950)

/-! Build-time parameters (R9), `OPEN`. -/

/-- `CLK`: the speed this build was made for. -/
opaque clk : Clk

/-- One less than `UNIT_NOPS` at each speed. -/
opaque unitNopsPred : Clk → Nat
/-- `UNIT_NOPS[CLK]`: the no-effect instructions of one unit delay at a speed, at least 1. -/
def unitNopsAt (speed : Clk) : Nat := unitNopsPred speed + 1
/-- `UNIT_NOPS` without an index: `UNIT_NOPS[CLK]`. -/
def unitNops : Nat := unitNopsAt clk

/-- One less than `CPU_HZ[CLK_A]`. -/
opaque cpuHzPredA : Nat
/-- `CPU_HZ[CLK_B]` before it is moved off `CPU_HZ[CLK_A]`. -/
opaque cpuHzRawB : Nat
/-- `CPU_HZ[CLK]`: positive, and different at the two speeds. Used by no step. -/
def cpuHz : Clk → Nat
  | .clkA => cpuHzPredA + 1
  | .clkB => if cpuHzRawB < cpuHzPredA then cpuHzRawB + 1 else cpuHzRawB + 2

/-- One less than the numerator of `TICK_HZ`. -/
opaque tickHzNumPred : Nat
/-- One less than the denominator of `TICK_HZ`. -/
opaque tickHzDenPred : Nat
/-- `TICK_HZ`: a positive rational. Used by no step. -/
def tickHz : Rat := (tickHzNumPred + 1 : Rat) / (tickHzDenPred + 1 : Rat)

/-- One less than `SHORT_TICKS`. -/
opaque shortTicksPred : Nat
/-- One less than the ticks from the short event to the rollover. -/
opaque longTicksPred : Nat
/-- `SHORT_TICKS`: the compare value, `0 < SHORT_TICKS < PERIOD_TICKS`. -/
def shortTicks : Nat := shortTicksPred + 1
/-- `PERIOD_TICKS`: the ticks of a cycle, at least 2. -/
def periodTicks : Nat := shortTicks + longTicksPred + 1

/-- The bits of the counter beyond the least width that holds the period. -/
opaque countBitsExtra : Nat
/-- `COUNT_BITS`: `2^COUNT_BITS >= PERIOD_TICKS`. -/
def countBits : Nat := Nat.clog 2 periodTicks + countBitsExtra

/-- The bits of the delay counter beyond the least width that holds the longest delay. -/
opaque dlyBitsExtra : Nat
/-- `DLY_BITS` (spec/10_state.md R25): `2^DLY_BITS > 255 * UNIT_NOPS`. -/
def dlyBits : Nat := Nat.clog 2 (255 * unitNops + 1) + dlyBitsExtra

/-- `SLOT_NS[CLK]` (R176): the real duration of a slot, `OPEN`. Used by no step. -/
opaque slotNs : Clk → Rat
/-- `OVH_NS` (R176): the real duration of an overhead step, `OPEN`. Used by no step. -/
opaque ovhNs : Rat

/-! The free values (assumption 5): who steps when the state lists no turn. The spec lets the agents interleave freely
(R7, R178) under the weak fairness of SEQUENCER and COUNTER (R7). So the free turns come in bursts, by turns COUNTER's
and the processor side's, each of a free positive length, and while no transmission runs the processor side's may be
COUNTER's after all. Each value is applied to plain counters of State. -/

/-- FREE VALUE: whether the first burst is COUNTER's. -/
opaque freeFirst : Bool

/-- FREE VALUE: one less than the turns of a burst. -/
opaque freeBurst : Nat → Nat

/-- FREE VALUE: whether COUNTER steps in a turn of a processor side's burst in which no transmission runs, so that
DISPATCHER or HOST is held off: neither is fair by R7. -/
opaque freeTick : Nat → Nat → Bool

end Config

end Sys2Proof
end

