-- ==== Sys2Proof/Machine/State.lean ====
section
/-! DEFINITION. The state of the block as plain data: the eighteen elements of spec/10_state.md R20, then the model's
own fields (the observation `TRACE`, the ROM cells, and what lets one deterministic step run four agents). -/

namespace Sys2Proof.Machine

/-- An event of the trace (spec/00_scope.md R13). -/
inductive Event where
  /-- `Pin(v)`: a sequencer operation wrote the pin level `v`. -/
  | pin (level : Bool)
  /-- `Slot`: one no-effect instruction slot was spent. -/
  | slot
  deriving DecidableEq, Repr

/-- Who moves at a step (spec/00_scope.md R6, R7). SEQUENCER, DISPATCHER and HOST are never enabled together, so a
turn names only which of the processor side, COUNTER and the environment's reset moves. -/
inductive Turn where
  /-- The one enabled agent of SEQUENCER, DISPATCHER and HOST. -/
  | processor
  /-- COUNTER. -/
  | counter
  /-- The environment resets the block (spec/70_reset_and_hazards.md R160). -/
  | reset
  deriving DecidableEq, Repr

/-- What comes from outside the block before a step: words that HOST will present behind those already waiting
(spec/40_commands.md R90), and whether the environment resets the block in this very step (R160). A run has one of
these a step, so nothing bounds how many words and resets an endless run holds (R181; assumption 19). -/
structure Input where
  words : List Word
  reset : Bool
  deriving DecidableEq, Repr

/-- The sequencer ROM as a list of (word index, word), in the canonical form of `Memory.wf`: an index that is not
listed reads as the listing of R117. The cell is a whole word because the block has no byte-addressed memory and no
byte order (spec/20_memory.md R50, R54; assumption 3). -/
abbrev Memory := List (Nat × Word)

/-- The whole state. -/
structure State where
  /-- S0 `C`, the colour latch (R21). -/
  c : Color
  /-- S1 `M`, the bit-position mask (R22). -/
  m : Color
  /-- S2 `T`, the test flag (R24). -/
  t : Bool
  /-- S3 `SPC`, the sequencer program counter (R23). -/
  spc : Index
  /-- S4 `DLY`, the slots still to spend in the UDELAY in progress (R25). -/
  dly : Nat
  /-- S5 `SACT`, sequencer active (R26). -/
  sact : Bool
  /-- S6 `IM`, the interrupt mask, true = disabled (R27). -/
  im : Bool
  /-- S7 `IMSAVE`, the saved interrupt mask (R28). -/
  imsave : Bool
  /-- S8 `PIN`, the output level, true = high (R29). -/
  pin : Bool
  /-- S9 `PINOE`, the output direction, true = output (R30). -/
  pinoe : Bool
  /-- S10 `IDLE`, the idle colour's 32-bit word; read and written only through `readIdle` and `writeIdle` (R31). -/
  idle : Word
  /-- S11 `COUNT`, the counter (R32). -/
  count : Nat
  /-- S12 `MCF`, the short-event flag (R34). -/
  mcf : Bool
  /-- S13 `OVF`, the rollover-event flag (R35). -/
  ovf : Bool
  /-- S14 `MCEN`, the short-event interrupt enable (R36). -/
  mcen : Bool
  /-- S15 `OVFEN`, the rollover-event interrupt enable (R36). -/
  ovfen : Bool
  /-- S16 `RUN`, counter armed (R37). -/
  run : Bool
  /-- S17 `HACT`, handler active (R38). -/
  hact : Bool
  /-- `TRACE`, the append-only observation (R13); no rule reads it. -/
  trace : List Event
  /-- The sequencer ROM (R51); no operation writes it. -/
  rom : Memory
  /-- The model's own: the command words HOST will present, first first (R90); those it comes to
  present later join them by `receive`. -/
  commands : List Word
  /-- The model's own: who moves next, first first; when it is empty free values decide (R7); a reset
  that comes later is put first by `receive`. -/
  turns : List Turn
  /-- The model's own: how many bursts of free turns are over. -/
  draws : Nat
  /-- The model's own: how many free turns of the present burst are over. -/
  spent : Nat
  deriving DecidableEq, Repr

/-- The block after reset (spec/10_state.md R42, spec/70_reset_and_hazards.md R160). `C`, `M`, `T` and `IMSAVE` have
no value there; the model names zero (assumption 1, DESIGN CHOICE). -/
def State.reset : State where
  c := 0#24
  m := 0#24
  t := false
  spc := 0#5
  dly := 0
  sact := false
  im := false
  imsave := false
  pin := false
  pinoe := false
  idle := 0#32
  count := 0
  mcf := false
  ovf := false
  mcen := false
  ovfen := false
  run := false
  hact := false
  trace := []
  rom := []
  commands := []
  turns := []
  draws := 0
  spent := 0

/-- Why the machine stops with a fault. The hardware has none (spec/60_exceptions.md R130); both are states the spec's
invariants rule out. -/
inductive Fault where
  /-- Raised by the sequencer's fetch at an index above 16: `RomRead(i)` for `i > 16` never happens and a model may
  make it a fault (spec/20_memory.md R51, spec/93_implementation_defined.md U13). Safe. -/
  | romIndex
  /-- Raised by a step in a state where no agent is enabled (`HACT = 1`, `SACT = 0`, `RUN = 0`): the table of
  spec/00_scope.md R7 gives it no step. Safe: a stuck state that R41 item 2 rules out. -/
  | noAgentEnabled
  deriving DecidableEq, Repr

/-- Why a step is refused: the closed list of spec/60_exceptions.md R130, and the model's own mark for an operation
without a meaning. -/
inductive Refusal where
  /-- Code 1, raised by command decode (and by a general ROM decoder): the word spells no legal operation in its
  place (R75 to R77). Safe. -/
  | illegalCommand
  /-- Code 2, raised by START when `RUN = 1` (R91). Safe. -/
  | startTwice
  /-- Code 3, raised by TRANSMIT when `PINOE = 0` (R93). Safe. -/
  | pinNotConfigured
  /-- Raised by an arm of `exec` whose operation has no meaning yet; no arm raises it. Safe. -/
  | notModelled (mnemonic : String)
  deriving DecidableEq, Repr

/-- The three outcomes of a step of this machine. -/
abbrev Out := Host.Outcome State Fault Refusal

end Sys2Proof.Machine
end

