-- ==== Sys2Proof/Machine/Flags.lean ====
section
/-! DEFINITION. Every flag computation and derived signal of the block: the test flag, the interrupt line, and the
enabling conditions of the agents (spec/00_scope.md R7). -/

namespace Sys2Proof.Machine

/-- What TST writes to `T`: `(C & M) != 0` on 24 bits (spec/41_sequencer.md R110). -/
def testFlag (c m : Color) : Bool := decide (c &&& m ≠ 0#24)

/-- What SHR writes to `M`: a logical shift right by one on 24 bits (R111). -/
def shiftMask (m : Color) : Color := m >>> 1

/-- The interrupt line, `(MCF and MCEN) or (OVF and OVFEN)`, level-sensitive (spec/60_exceptions.md R134). -/
def irq (s : State) : Bool := s.mcf && s.mcen || s.ovf && s.ovfen

/-- DISPATCHER is enabled: an interrupt can be taken (R135). -/
def takeable (s : State) : Bool := irq s && !s.im && !s.hact && !s.sact

/-- SEQUENCER is enabled (spec/00_scope.md R7). -/
def sequencerEnabled (s : State) : Bool := s.sact

/-- HOST is enabled: the command port is ready (R7, spec/40_commands.md R90). -/
def hostEnabled (s : State) : Bool := !s.sact && !s.hact && !takeable s

/-- COUNTER is enabled (R7). -/
def counterEnabled (s : State) : Bool := s.run

/-- The state is quiescent: nothing in flight and nothing pending (spec/70_reset_and_hazards.md R181). -/
def quiescent (s : State) : Bool := !s.sact && !s.hact && !irq s

/-- What the wire carries: the pin level while the pin is an output, nothing of the block's otherwise (spec/10_state.md
R29, R30). -/
def wire (s : State) : Option Bool := if s.pinoe then some s.pin else none

/-- The two contexts (spec/60_exceptions.md R144). -/
inductive Context where
  /-- `HACT = 0`: HOST's commands run here. -/
  | thread
  /-- `HACT = 1`: from an interrupt entry to the RET of its transmission. -/
  | handler
  deriving DecidableEq, Repr

/-- The context the block is in. -/
def context (s : State) : Context := if s.hact then .handler else .thread

/-- `WAITING_FOR_SHORT_EVENT` (spec/10_state.md R39): a name for a range of the count, not a state element. -/
def waitingForShortEvent (s : State) : Bool := s.run && decide (s.count < Config.shortTicks)

/-- `WAITING_FOR_ROLLOVER` (R39). -/
def waitingForRollover (s : State) : Bool := s.run && decide (Config.shortTicks ≤ s.count)

end Sys2Proof.Machine
end

