-- ==== Sys2Proof/Machine/Operands.lean ====
section
/-! DEFINITION. The three operand forms of the operations (spec/30_encoding.md R71, R72). -/

namespace Sys2Proof.Machine

/-- A colour operand as the word it is stored as: `zext_32(color)` (spec/00_scope.md R11). -/
def colorWord (color : Color) : Word := color.zeroExtend 32

/-- A count of unit delays as slots, `k * UNIT_NOPS`, unsigned and exact (spec/41_sequencer.md R104). -/
def slotCount (unit : Nat) (k : Units) : Nat := k.toNat * unit

/-- A branch target as the value of `SPC`: an absolute word index, not relative and not scaled (R72). -/
def targetIndex (target : Index) : Index := target

/-! The channels of a colour (spec/20_memory.md R53). The block interprets none of them: they are names for readers. -/

/-- Green, bits 23:16. -/
def green (color : Color) : BitVec 8 := color.extractLsb' 16 8
/-- Red, bits 15:8. -/
def red (color : Color) : BitVec 8 := color.extractLsb' 8 8
/-- Blue, bits 7:0. -/
def blue (color : Color) : BitVec 8 := color.extractLsb' 0 8

end Sys2Proof.Machine
end

