-- ==== Sys2Proof/Machine/Ops.lean ====
section
/-! DEFINITION. The named operations over the state that the meanings and the agents share: the ROM, the trace, the
sequencer's program counter, the idle colour's word, the delay, starting and ending a transmission, the interrupt
entry, the tick, and reset. -/

namespace Sys2Proof.Machine

/-! The sequencer ROM (spec/20_memory.md R51, spec/41_sequencer.md R117). -/

/-- The seventeen words of R117. -/
def romListing : List Word :=
  [0x14000000#32, 0x16000000#32, 0x17000000#32, 0x1A000009#32, 0x12000000#32, 0x1100000E#32, 0x13000000#32,
   0x1100000C#32, 0x1900000D#32] ++
  [0x12000000#32, 0x11000007#32, 0x13000000#32, 0x11000010#32, 0x18000000#32, 0x1B000002#32, 0x15000000#32,
   0x1C000000#32]

/-- What an index that the state does not list reads as: the word of R117. -/
def romDefault (i : Nat) : Word := romListing.getD i 0#32

/-- The word a list of cells holds at an index. -/
def readCell : Memory → Nat → Word
  | [], i => romDefault i
  | (j, v) :: rest, i => if i = j then v else readCell rest i

/-- A cell in front of a list, left out when it holds what an unlisted index reads as. -/
def consCell (i : Nat) (w : Word) (rest : Memory) : Memory := if w = romDefault i then rest else (i, w) :: rest

/-- The list with the cell at an index replaced, in canonical form again. -/
def writeCell : Memory → Nat → Word → Memory
  | [], i, w => consCell i w []
  | (j, v) :: rest, i, w =>
    if i < j then consCell i w ((j, v) :: rest)
    else if i = j then consCell i w rest
    else (j, v) :: writeCell rest i w

/-- Every listed index is at least `low` and below `ROM_LEN`, the indices rise strictly, and no cell holds what an
unlisted index reads as. -/
def cellsFrom : Nat → Memory → Bool
  | _, [] => true
  | low, (j, v) :: rest =>
    decide (low ≤ j) && decide (j < Config.romLen) && decide (v ≠ romDefault j) && cellsFrom (j + 1) rest

/-- The canonical form of the ROM cells. -/
def Memory.wf (mem : Memory) : Bool := cellsFrom 0 mem

/-- `RomRead(i)`: the word at an index 0 to 16, nothing above (R51). -/
def romRead (s : State) (i : Nat) : Option Word := if i < Config.romLen then some (readCell s.rom i) else none

/-- Put a word at an index of the ROM. No operation of the block does this (R50); only `placeWord` does. -/
def romPlace (i : Nat) (w : Word) (s : State) : State :=
  if i < Config.romLen then { s with rom := writeCell s.rom i w } else s

/-! The trace and the sequencer's program counter. -/

/-- `emit e` (spec/00_scope.md R12, R13). -/
def emit (e : Event) (s : State) : State := { s with trace := s.trace ++ [e] }

/-- `SPC <- SPC + 1` (spec/10_state.md R23). -/
def advance (s : State) : State := { s with spc := s.spc + 1 }

/-- `SPC <- target`. -/
def jump (target : Index) (s : State) : State := { s with spc := targetIndex target }

/-- Write the pin level and record it (spec/41_sequencer.md R105, R106). -/
def drivePin (level : Bool) (s : State) : State := emit (.pin level) { s with pin := level }

/-! The idle colour's word (spec/10_state.md R31): bits 31:24 are hardwired to zero. -/

/-- The bits of the `IDLE` word that exist. -/
def idleBits : Word := 0x00FFFFFF#32

/-- The whole `IDLE` word as it reads. -/
def readIdle (s : State) : Word := s.idle &&& idleBits

/-- Write the whole `IDLE` word in one step (spec/20_memory.md R56). -/
def writeIdle (w : Word) (s : State) : State := { s with idle := w &&& idleBits }

/-- `IDLE[23:0]`, the idle colour. -/
def idleColor (s : State) : Color := (readIdle s).extractLsb' 0 24

/-! The delay (spec/41_sequencer.md R104). -/

/-- One step of a UDELAY that asks for `n` slots in all. -/
def delayStep (n : Nat) (s : State) : State :=
  if n = 0 then advance s
  else
    let r := if s.dly = 0 then n else s.dly
    if r = 1 then advance { emit .slot s with dly := 0 } else { emit .slot s with dly := r - 1 }

/-! Starting and ending a transmission; the interrupt entry and the return from it. -/

/-- `StartTx(c)` (R116). -/
def startTx (color : Color) (s : State) : State := { s with c := color, spc := 0#5, dly := 0, sact := true }

/-- The interrupt entry (spec/60_exceptions.md R139): short event first, one flag an entry; it saves nothing and does
not touch `IM` (R140). The third branch writes `HACT` twice and the later write wins (spec/00_scope.md R12). -/
def interruptEntry (s : State) : State :=
  if s.mcf then startTx (idleColor s) { s with hact := true, mcf := false }
  else if s.ovf then startTx Config.white { s with hact := true, ovf := false }
  else { s with hact := false }

/-- The end of a transmission, which is also the return from the handler when `HACT = 1` (spec/41_sequencer.md R115,
spec/60_exceptions.md R141). -/
def endTransmission (s : State) : State :=
  { s with sact := false, spc := 0#5, dly := 0, hact := if s.hact then false else s.hact }

/-! The counter and reset. -/

/-- The tick of a counter with a given period and compare value (spec/60_exceptions.md R146). -/
def tick (period short : Nat) (s : State) : State :=
  if s.count = period - 1 then { s with count := 0, ovf := true }
  else { s with count := s.count + 1, mcf := if s.count + 1 = short then true else s.mcf }

/-- Reset (spec/70_reset_and_hazards.md R160): every element at its reset value and the trace emptied. The ROM is
constant, and what the environment does next is not the block's. -/
def resetStep (s : State) : State :=
  { State.reset with
    rom := s.rom, commands := s.commands, turns := s.turns, draws := s.draws, spent := s.spent }

end Sys2Proof.Machine
end

