-- ==== Sys2Proof/Machine/Commands.lean ====
section
/-! DEFINITION. The meanings of the three commands (spec/40_commands.md). A command returns no value and a refused one
changes no state (R90). -/

namespace Sys2Proof.Machine

/-- START (R91): configure the pin, store the idle colour, arm the counter; refused when already armed. -/
def execStart (color : Color) (s : State) : Out :=
  if s.run then .refused .startTwice
  else
    .next { writeIdle (colorWord color) s with
      pinoe := true, pin := false, count := 0, mcf := false, ovf := false, mcen := true, ovfen := true, run := true }

/-- SETIDLE (R92): replace the idle colour. -/
def execSetIdle (color : Color) (s : State) : Out := .next (writeIdle (colorWord color) s)

/-- TRANSMIT (R93): start a transmission; refused when the pin is not an output. -/
def execTransmit (color : Color) (s : State) : Out :=
  if s.pinoe then .next (startTx color s) else .refused .pinNotConfigured

end Sys2Proof.Machine
end

