-- ==== Sys2Proof/Machine/Sequencer.lean ====
section
/-! DEFINITION. The meanings of the thirteen sequencer operations (spec/41_sequencer.md section 2). Each is one
SEQUENCER step; none can be refused or can fault. -/

namespace Sys2Proof.Machine

/-- NOP (R103): spend one slot. -/
def execNop (s : State) : Out := .next (advance (emit .slot s))

/-- UDELAY `k` (R104): one of the `k * UNIT_NOPS` slots; `SPC` moves on with the last one. -/
def execUdelay (k : Units) (s : State) : Out := .next (delayStep (slotCount Config.unitNops k) s)

/-- PINHI (R105). -/
def execPinHi (s : State) : Out := .next (advance (drivePin true s))

/-- PINLO (R106). -/
def execPinLo (s : State) : Out := .next (advance (drivePin false s))

/-- IRQSAVE (R107): remember the interrupt mask and close it. -/
def execIrqSave (s : State) : Out := .next (advance { s with imsave := s.im, im := true })

/-- IRQREST (R108): put the interrupt mask back as it was. -/
def execIrqRest (s : State) : Out := .next (advance { s with im := s.imsave })

/-- LDMASK (R109): point the mask at bit 23. -/
def execLdMask (s : State) : Out := .next (advance { s with m := Config.msbMask })

/-- TST (R110): test the current bit of the colour. -/
def execTst (s : State) : Out := .next (advance { s with t := testFlag s.c s.m })

/-- SHR (R111): move the mask one bit towards bit 0. -/
def execShr (s : State) : Out := .next (advance { s with m := shiftMask s.m })

/-- B `target` (R112). -/
def execB (target : Index) (s : State) : Out := .next (jump target s)

/-- BF `target` (R113): taken when the tested bit was 0. -/
def execBf (target : Index) (s : State) : Out := .next (if s.t then advance s else jump target s)

/-- BNZ `target` (R114): taken while the mask is not empty; it does not consult `T`. -/
def execBnz (target : Index) (s : State) : Out := .next (if s.m = 0#24 then advance s else jump target s)

/-- RET (R115): end the transmission, and the handler when it started it. -/
def execRet (s : State) : Out := .next (endTransmission s)

end Sys2Proof.Machine
end

