-- ==== Sys2Proof/Machine/Dispatch.lean ====
section
/-! DEFINITION. One arm per operation, each a direct call of its meaning. -/

namespace Sys2Proof.Machine

def exec (i : Instr) (s : State) : Host.Outcome State Fault Refusal :=
  match i with
  | .start color => Sys2Proof.Machine.execStart color s
  | .setIdle color => Sys2Proof.Machine.execSetIdle color s
  | .transmit color => Sys2Proof.Machine.execTransmit color s
  | .nop => Sys2Proof.Machine.execNop s
  | .udelay k => Sys2Proof.Machine.execUdelay k s
  | .pinHi => Sys2Proof.Machine.execPinHi s
  | .pinLo => Sys2Proof.Machine.execPinLo s
  | .irqSave => Sys2Proof.Machine.execIrqSave s
  | .irqRest => Sys2Proof.Machine.execIrqRest s
  | .ldMask => Sys2Proof.Machine.execLdMask s
  | .tst => Sys2Proof.Machine.execTst s
  | .shr => Sys2Proof.Machine.execShr s
  | .b target => Sys2Proof.Machine.execB target s
  | .bf target => Sys2Proof.Machine.execBf target s
  | .bnz target => Sys2Proof.Machine.execBnz target s
  | .ret => Sys2Proof.Machine.execRet s

end Sys2Proof.Machine
end

