-- ==== Sys2Proof/Machine/Agents.lean ====
section
/-! DEFINITION. The steps of the four agents and the choice of who moves (spec/00_scope.md R6, R7), which `step` only
calls, and the placing of a word where the next step runs it. -/

namespace Sys2Proof.Machine

/-- One SEQUENCER step (spec/41_sequencer.md R100): fetch at `SPC`, decode, perform. -/
def sequencerStep (s : State) : Out :=
  match romRead s s.spc.toNat with
  | none => .fault .romIndex
  | some w =>
    match decodeRom w with
    | .ok i => exec i s
    | .error _ => .refused .illegalCommand

/-- One HOST step with a command word (spec/40_commands.md R90): decode and perform. -/
def hostStep (w : Word) (s : State) : Out :=
  match decodeCommand w with
  | .ok i => exec i s
  | .error _ => .refused .illegalCommand

/-- One COUNTER step, with the parameters of this build (spec/60_exceptions.md R146). -/
def counterStep (s : State) : State := tick Config.periodTicks Config.shortTicks s

/-- HOST's turn at a ready port (assumption 4): its next command word if it has one; if it issues nothing, COUNTER is
the one enabled agent that steps, and before START nothing moves (spec/70_reset_and_hazards.md R162, R181). Words
that HOST comes to issue later reach the list by `receive`. -/
def hostTurn (s : State) : Out :=
  match s.commands with
  | w :: rest => hostStep w { s with commands := rest }
  | [] => .next (if s.run then counterStep s else s)

/-- The one enabled agent of SEQUENCER, DISPATCHER and HOST steps (R7). Where none is, COUNTER is the only agent that
can be, and where it is not either no step exists. -/
def processorStep (s : State) : Out :=
  if sequencerEnabled s then sequencerStep s
  else if takeable s then .next (interruptEntry s)
  else if hostEnabled s then hostTurn s
  else if counterEnabled s then .next (counterStep s)
  else .fault .noAgentEnabled

/-- The step of the turn's agent. COUNTER's turn while it is not armed falls to the processor side, since exactly one
enabled agent steps (R7). -/
def agentStep (turn : Turn) (s : State) : Out :=
  match turn with
  | .reset => .next (resetStep s)
  | .counter => if counterEnabled s then .next (counterStep s) else processorStep s
  | .processor => processorStep s

/-- Whose burst of free turns it is: the bursts alternate (assumption 5). -/
def counterBurst (burst : Nat) : Bool := decide (burst % 2 = 0) == Config.freeFirst

/-- The turn the free values give. While a transmission runs, a turn of a processor side's burst is SEQUENCER's. -/
def freeTurn (s : State) : Turn :=
  if counterBurst s.draws || !s.sact && Config.freeTick s.draws s.spent then .counter else .processor

/-- The state once a free turn is over: one more turn of the burst, or the next burst. -/
def afterFreeTurn (s : State) : State :=
  if s.spent < Config.freeBurst s.draws then { s with spent := s.spent + 1 }
  else { s with draws := s.draws + 1, spent := 0 }

/-- Whose turn it is: the first listed, or a free turn. -/
def currentTurn (s : State) : Turn :=
  match s.turns with
  | turn :: _ => turn
  | [] => freeTurn s

/-- The state once the turn is taken from the list, or is a free turn that is over. -/
def afterTurn (s : State) : State :=
  match s.turns with
  | _ :: rest => { s with turns := rest }
  | [] => afterFreeTurn s

/-- One step of the block: the agent whose turn it is steps. -/
def blockStep (s : State) : Out := agentStep (currentTurn s) (afterTurn s)

/-- What comes from outside reaches the block before a step (assumption 19): HOST's new words go behind its waiting
ones, and a reset takes this very step. -/
def receive (input : Input) (s : State) : State :=
  { s with
    commands := s.commands ++ input.words, turns := if input.reset then .reset :: s.turns else s.turns }

/-- A command word at the front of HOST's words, with the port ready and HOST's turn next (assumption 6). Where an
interrupt would be taken first it is masked, by `IM`. -/
def placeCommand (w : Word) (s : State) : State :=
  { s with
    commands := w :: s.commands, turns := .processor :: s.turns,
    sact := false, hact := false, im := s.im || irq s }

/-- A word in the ROM at `SPC` (at index 0 where `SPC` is no ROM index), with the sequencer active and its turn
next (assumption 6). -/
def placeRomWord (w : Word) (s : State) : State :=
  let at_ : Index := if targetLegal s.spc then s.spc else 0#5
  romPlace at_.toNat w { s with turns := .processor :: s.turns, sact := true, spc := at_ }

/-- A word where the very next step runs it: on the command port when it spells a command, else in the ROM. -/
def placeWord (w : Word) (s : State) : State :=
  match decodeCommand w with
  | .ok _ => placeCommand w s
  | .error _ => placeRomWord w s

end Sys2Proof.Machine
end

