-- ==== Sys2Proof/Machine/Step.lean ====
section
/-! DEFINITION. The step of the machine and the placing of an instruction where the next step runs it. -/

namespace Sys2Proof.Machine

/-- One step (spec/00_scope.md R7). -/
def step (s : State) : Host.Outcome State Fault Refusal := blockStep s

/-- `s` with the operation whose bits are `w` placed where the very next step runs it. -/
def State.withFetchWord (s : State) (nbits w : Nat) : State := placeWord (wordOfBits nbits w) s

end Sys2Proof.Machine
end

