-- ==== Sys2Proof/Safety.lean ====
section
/-! DEFINITION. What counts as a safe state and a safe run, in the terms the claims use: the invariants of
spec/10_state.md R41, the pulse trains of spec/41_sequencer.md R118 to R120, and runs under interleaved turns
(spec/70_reset_and_hazards.md R181). -/

namespace Sys2Proof.Machine

/-! Pulses and trains (R13, R119). -/

/-- `pulse(h, l)`: `[Pin(1)] ++ Slot^h ++ [Pin(0)] ++ Slot^l`. -/
def pulse (high low : Nat) : List Event :=
  [.pin true] ++ List.replicate high .slot ++ [.pin false] ++ List.replicate low .slot

/-- The pulse of a bit value, with a unit delay of `unit` slots. -/
def bitPulse (unit : Nat) (bit : Bool) : List Event :=
  if bit then pulse (Config.k1h * unit) (Config.k1l * unit) else pulse (Config.k0h * unit) (Config.k0l * unit)

/-- The pulses of bits `n - 1` down to 0. -/
def trainBelow (unit : Nat) (color : Color) : Nat → List Event
  | 0 => []
  | n + 1 => bitPulse unit (color.getLsbD n) ++ trainBelow unit color n

/-- `train(c)`: the pulses of bits 23 down to 0. -/
def train (unit : Nat) (color : Color) : List Event := trainBelow unit color 24

/-- How many of the low `n` bits are 1. -/
def onesBelow (color : Color) : Nat → Nat
  | 0 => 0
  | n + 1 => (if color.getLsbD n then 1 else 0) + onesBelow color n

/-- `n1` of R119: the number of 1 bits of a colour. -/
def ones (color : Color) : Nat := onesBelow color 24

/-- The SEQUENCER steps of a transmission (R120), from `StartTx` to the state after RET. -/
def transmissionSteps (unit : Nat) (color : Color) : Nat :=
  4 + 7 * ones color + 6 * (24 - ones color) + unit * (26 * ones color + 23 * (24 - ones color))

/-- The SEQUENCER steps of one bit (R118). -/
def bitSteps (unit : Nat) (bit : Bool) : Nat := if bit then 7 + 26 * unit else 6 + 23 * unit

/-! Runs under interleaved turns. -/

/-- `n` steps of the machine, stopping at the first fault or refusal. -/
def runSteps (n : Nat) (s : State) : Out := Host.Core.run Sys2Proof.core n s

/-- The processor side has the turn: it is named, or COUNTER is and is not armed (R7). -/
def ProcessorSide (s : State) : Prop :=
  currentTurn s = .processor ∨ currentTurn s = .counter ∧ s.run = false

/-- How many of the turns are steps of the processor side: all but COUNTER's, which are its own only while it is
armed (R7). -/
def processorTurns (armed : Bool) : List Turn → Nat
  | [] => 0
  | .counter :: rest => (if armed then 0 else 1) + processorTurns armed rest
  | .processor :: rest => 1 + processorTurns armed rest
  | .reset :: rest => processorTurns armed rest

/-- `n` ticks of the counter in a row. -/
def ticks : Nat → State → State
  | 0, s => s
  | n + 1, s => ticks n (counterStep s)

/-- `n` steps in a row of one operation, stopping at the first that does not answer a next state. -/
def repeatOp (i : Instr) : Nat → State → Out
  | 0, s => .next s
  | n + 1, s =>
    match exec i s with
    | .next s' => repeatOp i n s'
    | .fault r => .fault r
    | .refused r => .refused r

/-! The invariants (spec/10_state.md R41). -/

/-- Exactly one bit of the mask is set. -/
def OneHot (m : Color) : Prop := ∃ i, i < 24 ∧ m = 1#24 <<< i

/-- The ten items of R41. -/
structure Invariants (s : State) : Prop where
  /-- Item 1. -/
  inactiveIndex : s.sact = false → s.spc = 0#5 ∧ s.dly = 0
  /-- Item 2. -/
  handlerActive : s.hact = true → s.sact = true
  /-- Item 3. -/
  armed : s.run = true → s.pinoe = true ∧ s.mcen = true ∧ s.ovfen = true
  /-- Item 4. -/
  unarmed : s.run = false → s.count = 0 ∧ s.mcf = false ∧ s.ovf = false ∧ s.mcen = false ∧ s.ovfen = false
  /-- Item 5. -/
  countBound : s.count < Config.periodTicks
  /-- Item 6. -/
  activePin : s.sact = true → s.pinoe = true
  /-- Item 7. -/
  maskOneHot : s.sact = true → 2 ≤ s.spc.toNat → s.spc.toNat ≤ 14 → OneHot s.m ∨ s.spc.toNat = 14 ∧ s.m = 0#24
  /-- Item 8. -/
  masked : s.sact = true → 1 ≤ s.spc.toNat → s.spc.toNat ≤ 15 → s.im = true
  /-- Item 9. -/
  idlePin : s.sact = false → s.pin = false
  /-- Item 10. -/
  idleTop : s.idle.extractLsb' 24 8 = 0#8

/-- The pin level while the sequencer stands at an index: high from after a PINHI to its PINLO. -/
def pinAtIndex (i : Nat) : Bool := i == 5 || i == 6 || i == 10 || i == 11

/-- The units of the UDELAY at an index of the listing; 0 where none stands. -/
def unitsAtIndex (i : Nat) : Nat :=
  if i = 5 then Config.k1h else if i = 7 then Config.k1l else if i = 10 then Config.k0h
  else if i = 12 then Config.k0l else 0

/-- The invariant every step keeps: the items of R41, and what they rest on (the ROM is the listing, the index is a
ROM index, and the pin and the delay counter agree with the place in the program). -/
structure SafeState (s : State) : Prop extends Invariants s where
  romIsListing : s.rom = []
  indexBound : s.spc.toNat ≤ 16
  pinMatchesIndex : s.sact = true → s.pin = pinAtIndex s.spc.toNat
  delayMatchesIndex : s.dly ≠ 0 → s.dly < unitsAtIndex s.spc.toNat * Config.unitNops

/-- The outcome is no fault. -/
def faultFree : Out → Bool
  | .next _ => true
  | .refused _ => true
  | .fault _ => false

/-! Fair runs (spec/00_scope.md R6, R7; spec/92_eei_decisions.md D44). -/

/-- The four agents (R6). -/
inductive Agent where
  | host
  | counter
  | dispatcher
  | sequencer
  deriving DecidableEq, Repr

/-- An agent is enabled: the table of R7. -/
def enabled : Agent → State → Bool
  | .host => hostEnabled
  | .counter => counterEnabled
  | .dispatcher => takeable
  | .sequencer => sequencerEnabled

/-- The agent that steps in a turn of the processor side; none where HOST issues nothing and COUNTER is not armed, and
where no agent is enabled. -/
def processorStepper (s : State) : Option Agent :=
  if sequencerEnabled s then some .sequencer
  else if takeable s then some .dispatcher
  else if hostEnabled s && decide (s.commands ≠ []) then some .host
  else if counterEnabled s then some .counter
  else none

/-- The agent that takes the next step; none at a reset, which is the environment's. -/
def stepper (s : State) : Option Agent :=
  match currentTurn s with
  | .reset => none
  | .counter => if counterEnabled s then some .counter else processorStepper s
  | .processor => processorStepper s

/-- A run without end, with what comes from outside before each of its steps: HOST's words and resets, as often as the
outside likes (spec/70_reset_and_hazards.md R181; R7, R92, R160 bound neither). From a launch state it is a run of
R181 that meets no refusal. -/
def EndlessRun (input : Nat → Input) (run : Nat → State) : Prop :=
  ∀ n, step (receive (input n) (run n)) = .next (run (n + 1))

/-- An agent is weakly fair in a run: if it stays enabled from some moment on, it steps later (R7). It is a rule of the
block for SEQUENCER and COUNTER; for DISPATCHER and HOST it is a premise a claim may take (D44). -/
def WeaklyFair (agent : Agent) (input : Nat → Input) (run : Nat → State) : Prop :=
  ∀ n, (∀ m, n ≤ m → enabled agent (run m) = true) →
    ∃ m, n ≤ m ∧ stepper (receive (input m) (run m)) = some agent

/-! The launch (spec/70_reset_and_hazards.md R163, R165, R181). -/

/-- What the collaborators answer for at the launch, which the block cannot check (R163, R165; assumption 18). The
step reads none of it, so a claim that needs it takes `met` as a premise. -/
structure LaunchPremises where
  /-- START is called "after the pin has been claimed for output use". -/
  pinClaimed : Bool
  /-- "the CPU clock ... stable". -/
  cpuClockStable : Bool
  /-- "the low-power timer clock source ... stable". -/
  timerClockStable : Bool
  /-- The speed that is actually running (R163 item 1). -/
  runningClk : Clk
  deriving DecidableEq, Repr

/-- The premises hold: the pin is claimed, both clocks are stable, and the running speed is the build's. -/
def premisesMet (p : LaunchPremises) : Bool :=
  p.pinClaimed && p.cpuClockStable && p.timerClockStable && decide (p.runningClk = Config.clk)

/-- A launch state (R181): it satisfies R41, the ROM is its listing and the trace is empty. Nothing is asked of `IM`
while `SACT = 0` (spec/10_state.md R27), nor of what HOST will present and who will move. -/
structure LaunchState (s : State) : Prop extends Invariants s where
  romIsListing : s.rom = []
  traceEmpty : s.trace = []

/-- A launch as R165 wants it: a launch state, not yet armed, under the premises. That START is called once is the one
precondition the block checks itself, by `startTwice`. -/
structure Launch (p : LaunchPremises) (s : State) : Prop extends LaunchState s where
  premises : premisesMet p = true
  notStarted : s.run = false

end Sys2Proof.Machine
end

