-- ==== Sys2Proof/Certificates/Slice0/Obligations.lean ====
section
/-! DEFINITION. The statements for the provers. Each docstring names the rules of spec/ the statement formalises. -/

open Sys2Proof Sys2Proof.Machine

/-! ## Encoding -/

/-- R71 to R73: no bit of a legal operation is dropped by its word. -/
def Obligations.DecodeOfEncode : Prop :=
  ∀ i : Instr, i.WellFormed → decode (encode i) = .ok i

/-- R71 to R77: a word has at most one meaning, its encoder gives the word back, and only legal operations are
decoded. -/
def Obligations.EncodeOfDecode : Prop :=
  ∀ (w : Word) (i : Instr), decode w = .ok i → encode i = w ∧ i.WellFormed

/-- R73: the opcode map. The one exception is R77's: a branch row with a target of 17 to 31 is reserved. -/
def Obligations.WordIsItsRowsOperation : Prop :=
  (∀ (w : Word) (i : Instr), decode w = .ok i → i.row ∈ opcodeMap ∧ w &&& i.row.mask = i.row.pattern) ∧
  (∀ (w : Word) (r : OpRow), r ∈ opcodeMap → w &&& r.mask = r.pattern →
    (∃ i, decode w = .ok i ∧ i.row = r) ∨
    (r.mnemonic ∈ ["B", "BF", "BNZ"] ∧ 16 < (w.extractLsb' 0 5).toNat ∧
      decode w = .error (.reservedTarget (w.extractLsb' 0 5)))) ∧
  (∀ (w : Word) (r r' : OpRow), r ∈ opcodeMap → r' ∈ opcodeMap →
    w &&& r.mask = r.pattern → w &&& r'.mask = r'.pattern → r = r')

/-- R75: decoding on the command port, total on all words; the ROM decoder never fails on the listing and a general
one refuses every other word. -/
def Obligations.CommandPortDecoding : Prop :=
  (∀ w : Word,
    (w.extractLsb' 24 8 = 0x01#8 → decodeCommand w = .ok (.start (w.extractLsb' 0 24))) ∧
    (w.extractLsb' 24 8 = 0x02#8 → decodeCommand w = .ok (.setIdle (w.extractLsb' 0 24))) ∧
    (w.extractLsb' 24 8 = 0x03#8 → decodeCommand w = .ok (.transmit (w.extractLsb' 0 24)))) ∧
  (∀ (w : Word) (rest : List Word) (s : State), ProcessorSide s → hostEnabled s = true → s.commands = w :: rest →
    w.extractLsb' 24 8 ≠ 0x01#8 → w.extractLsb' 24 8 ≠ 0x02#8 → w.extractLsb' 24 8 ≠ 0x03#8 →
    step s = .refused .illegalCommand) ∧
  (∀ n, n < 17 → ∃ i, decodeRom (romDefault n) = .ok i) ∧
  (∀ (w : Word) (s : State), ProcessorSide s → s.sact = true → romRead s s.spc.toNat = some w →
    (∀ i, decode w ≠ .ok i) → step s = .refused .illegalCommand)

/-- R76: reserved opcodes, and sequencer opcodes on the command port. -/
def Obligations.ReservedOpcodesAreRefused : Prop :=
  (∀ w : Word, (w.extractLsb' 24 8).toNat = 0 ∨ 0x04 ≤ (w.extractLsb' 24 8).toNat ∧ (w.extractLsb' 24 8).toNat ≤ 0x0F ∨
      0x1D ≤ (w.extractLsb' 24 8).toNat →
    decode w = .error (.reservedOpcode (w.extractLsb' 24 8))) ∧
  (∀ (w : Word) (rest : List Word) (s : State), ProcessorSide s → hostEnabled s = true → s.commands = w :: rest →
    (w.extractLsb' 24 8).toNat = 0 ∨ 0x04 ≤ (w.extractLsb' 24 8).toNat →
    step s = .refused .illegalCommand)

/-- R77: reserved operand bits of a sequencer word, and the reserved targets; every colour is legal, and no word of
the ROM is reserved. -/
def Obligations.ReservedOperandBitsAreRefused : Prop :=
  (∀ (w : Word) (s : State), ProcessorSide s → s.sact = true → romRead s s.spc.toNat = some w →
    (w.extractLsb' 24 8 ∈ [0x10#8, 0x12#8, 0x13#8, 0x14#8, 0x15#8, 0x16#8, 0x17#8, 0x18#8, 0x1C#8] ∧
        w.extractLsb' 0 24 ≠ 0#24 ∨
      w.extractLsb' 24 8 = 0x11#8 ∧ w.extractLsb' 8 16 ≠ 0#16 ∨
      w.extractLsb' 24 8 ∈ [0x19#8, 0x1A#8, 0x1B#8] ∧
        (w.extractLsb' 5 19 ≠ 0#19 ∨ 17 ≤ (w.extractLsb' 0 5).toNat)) →
    step s = .refused .illegalCommand) ∧
  (∀ (op : BitVec 8) (color : Color), op ∈ [0x01#8, 0x02#8, 0x03#8] → ∃ i, decodeCommand (op ++ color) = .ok i) ∧
  (∀ n, n < 17 → ∃ i, decodeRom (romDefault n) = .ok i)

/-- R71, R73: words written out from the tables, one or more of each operand form, decode to their operations. -/
def Obligations.SampleWordsDecode : Prop :=
  decode 0x0100FF00#32 = .ok (.start 0x00FF00#24) ∧ decode 0x0200FF00#32 = .ok (.setIdle 0x00FF00#24) ∧
  decode 0x03800000#32 = .ok (.transmit 0x800000#24) ∧ decode 0x10000000#32 = .ok .nop ∧
  decode 0x1100000E#32 = .ok (.udelay 14#8) ∧ decode 0x12000000#32 = .ok .pinHi ∧
  decode 0x13000000#32 = .ok .pinLo ∧ decode 0x14000000#32 = .ok .irqSave ∧ decode 0x15000000#32 = .ok .irqRest ∧
  decode 0x16000000#32 = .ok .ldMask ∧ decode 0x17000000#32 = .ok .tst ∧ decode 0x18000000#32 = .ok .shr ∧
  decode 0x1900000D#32 = .ok (.b 13#5) ∧ decode 0x1A000009#32 = .ok (.bf 9#5) ∧
  decode 0x1B000002#32 = .ok (.bnz 2#5) ∧ decode 0x1C000000#32 = .ok .ret

/-! ## Who steps -/

/-- R100: with the sequencer active and the turn on the processor side, a step is the fetched operation's meaning on
the state whose turn has been taken. The turns, listed or free, are the model's own (assumptions 4 and 5). -/
def Obligations.StepRunsFetchedOperation : Prop :=
  (∀ (s : State) (w : Word) (i : Instr), ProcessorSide s → s.sact = true → romRead s s.spc.toNat = some w →
    decodeRom w = .ok i → step s = exec i (afterTurn s)) ∧
  (∀ (s : State) (turn : Turn) (rest : List Turn), s.turns = turn :: rest →
    currentTurn s = turn ∧ afterTurn s = { s with turns := rest }) ∧
  (∀ s : State, s.turns = [] → currentTurn s ≠ .reset ∧
    ∃ draws spent, afterTurn s = { s with draws := draws, spent := spent })

/-- R90: with the port ready and the turn on the processor side, HOST's next word is decoded and performed in the
same step. -/
def Obligations.StepRunsHostCommand : Prop :=
  ∀ (s : State) (w : Word) (rest : List Word) (i : Instr), ProcessorSide s → hostEnabled s = true →
    s.commands = w :: rest → decodeCommand w = .ok i → step s = exec i { afterTurn s with commands := rest }

/-- R90, R7: while the port is not ready HOST waits; no command word is taken. -/
def Obligations.HostWaitsUntilReady : Prop :=
  ∀ s t : State, step s = .next t → s.sact = true ∨ s.hact = true ∨ takeable s = true → t.commands = s.commands

/-- R7, R137: SEQUENCER, DISPATCHER and HOST are never enabled together, and outside the stuck states that R41 rules
out exactly one of them is. -/
def Obligations.OneProcessorAgentIsEnabled : Prop :=
  ∀ s : State,
    ¬(sequencerEnabled s = true ∧ takeable s = true) ∧ ¬(sequencerEnabled s = true ∧ hostEnabled s = true) ∧
    ¬(takeable s = true ∧ hostEnabled s = true) ∧
    ((s.hact = true → s.sact = true) →
      sequencerEnabled s = true ∨ takeable s = true ∨ hostEnabled s = true)

/-- A placed word (assumption 6) is what the very next step runs: a command on the command port, a sequencer
operation at a ROM index. -/
def Obligations.PlacedWordRunsNext : Prop :=
  ∀ (s : State) (i : Instr), i.WellFormed → Memory.wf s.rom = true →
    (i.isCommand = true →
      step (s.withFetchWord 32 (encode i).toNat) =
        exec i { s with sact := false, hact := false, im := s.im || irq s }) ∧
    (i.isCommand = false →
      ∃ u, (∃ at_ : Index, at_.toNat ≤ 16 ∧ (s.spc.toNat ≤ 16 → at_ = s.spc) ∧
          u = { s with sact := true, spc := at_, rom := u.rom } ∧ readCell u.rom at_.toNat = encode i) ∧
        step (s.withFetchWord 32 (encode i).toNat) = exec i u)

/-! ## Commands -/

/-- R91: START, its whole next state, and its refusal. -/
def Obligations.StartArmsTheBlock : Prop :=
  ∀ (color : Color) (s : State),
    (s.run = false → exec (.start color) s = .next { s with
      pinoe := true, pin := false, idle := color.zeroExtend 32, count := 0, mcf := false, ovf := false,
      mcen := true, ovfen := true, run := true }) ∧
    (s.run = true → exec (.start color) s = .refused .startTwice)

/-- R92: SETIDLE, its whole next state; the next entry that services a short event transmits the new colour. -/
def Obligations.SetIdleReplacesTheIdleColour : Prop :=
  ∀ (color : Color) (s : State),
    exec (.setIdle color) s = .next { s with idle := color.zeroExtend 32 } ∧
    ∀ u : State, u.idle = color.zeroExtend 32 → u.mcf = true → (interruptEntry u).c = color

/-- R93, R116: TRANSMIT's command step, its whole next state, and its refusal. -/
def Obligations.TransmitStartsTheSequencer : Prop :=
  ∀ (color : Color) (s : State),
    (s.pinoe = true → exec (.transmit color) s = .next { s with c := color, spc := 0#5, dly := 0, sact := true }) ∧
    (s.pinoe = false → exec (.transmit color) s = .refused .pinNotConfigured)

/-! ## Sequencer operations -/

/-- R103: NOP, its whole next state; the fixed ROM holds none. -/
def Obligations.NopSpendsOneSlot : Prop :=
  (∀ s : State, exec .nop s = .next { s with trace := s.trace ++ [.slot], spc := s.spc + 1 }) ∧
  ∀ n, n < 17 → romDefault n ≠ encode .nop

/-- R104: one step of UDELAY, its whole next state in each of the three cases. -/
def Obligations.UdelayStepSpendsOneSlot : Prop :=
  ∀ (k : Units) (s : State),
    (k.toNat * Config.unitNops = 0 → exec (.udelay k) s = .next { s with spc := s.spc + 1 }) ∧
    (k.toNat * Config.unitNops ≠ 0 → ∀ r, r = (if s.dly = 0 then k.toNat * Config.unitNops else s.dly) →
      (r = 1 → exec (.udelay k) s = .next { s with dly := 0, trace := s.trace ++ [.slot], spc := s.spc + 1 }) ∧
      (r ≠ 1 → exec (.udelay k) s = .next { s with dly := r - 1, trace := s.trace ++ [.slot] }))

/-- R104, R101: a UDELAY that asks for a slot is executed `k * UNIT_NOPS` times in a row and spends exactly that many
slots, standing at its index until the last. -/
def Obligations.UdelaySpendsExactlyItsSlots : Prop :=
  ∀ (k : Units) (s : State), s.dly = 0 → 0 < k.toNat →
    repeatOp (.udelay k) (k.toNat * Config.unitNops) s = .next { s with
      trace := s.trace ++ List.replicate (k.toNat * Config.unitNops) .slot, spc := s.spc + 1 } ∧
    ∀ n, 0 < n → n < k.toNat * Config.unitNops → repeatOp (.udelay k) n s = .next { s with
      dly := k.toNat * Config.unitNops - n, trace := s.trace ++ List.replicate n .slot }

/-- R80, R104: a UDELAY and as many NOPs leave the same trace and the same state, but for where the program stands.
-/
def Obligations.UdelayEqualsItsNops : Prop :=
  ∀ (k : Units) (s : State), s.dly = 0 → 0 < k.toNat →
    ∃ t u, repeatOp (.udelay k) (k.toNat * Config.unitNops) s = .next t ∧
      repeatOp .nop (k.toNat * Config.unitNops) s = .next u ∧ { t with spc := u.spc } = u

/-- R105, R106: the pin writes, their whole next states; they are unconditional and always recorded. -/
def Obligations.PinWritesAreUnconditional : Prop :=
  ∀ s : State,
    exec .pinHi s = .next { s with pin := true, trace := s.trace ++ [.pin true], spc := s.spc + 1 } ∧
    exec .pinLo s = .next { s with pin := false, trace := s.trace ++ [.pin false], spc := s.spc + 1 }

/-- What the spec infers of the program (R105 and R106: in the ROM PINHI "always finds `PIN = 0`" and PINLO "always
finds `PIN = 1`", marked derived; R110: `M = 0` "does not occur at TST in the ROM"): in every state that meets the
invariants. -/
def Obligations.ProgramMeetsNoCornerCase : Prop :=
  ∀ s : State, SafeState s → s.sact = true →
    (romRead s s.spc.toNat = some (encode .pinHi) → s.pin = false) ∧
    (romRead s s.spc.toNat = some (encode .pinLo) → s.pin = true) ∧
    (romRead s s.spc.toNat = some (encode .tst) → s.m ≠ 0#24)

/-- R107, R108: the bracket, its whole next states; after IRQSAVE no interrupt can be taken, and IRQREST puts back
what IRQSAVE found. -/
def Obligations.MaskBracketSavesAndRestores : Prop :=
  ∀ s : State,
    exec .irqSave s = .next { s with imsave := s.im, im := true, spc := s.spc + 1 } ∧
    exec .irqRest s = .next { s with im := s.imsave, spc := s.spc + 1 } ∧
    ∀ t u v : State, exec .irqSave s = .next t → takeable t = false ∧
      (u.imsave = t.imsave → exec .irqRest u = .next v → v.im = s.im ∧ v.imsave = s.im)

/-- R109, R111: LDMASK and SHR, their whole next states; the shift is logical on 24 bits. -/
def Obligations.MaskIsLoadedAndShifted : Prop :=
  ∀ s : State,
    exec .ldMask s = .next { s with m := 0x800000#24, spc := s.spc + 1 } ∧
    ∃ m', exec .shr s = .next { s with m := m', spc := s.spc + 1 } ∧
      (∀ i, i < 23 → m'.getLsbD i = s.m.getLsbD (i + 1)) ∧ m'.getLsbD 23 = false ∧
      (s.m = 1#24 ∨ s.m = 0#24 → m' = 0#24)

/-- R110: TST, its whole next state; with the mask at bit `i` the flag is bit `i` of the colour, and an empty mask
gives 0. -/
def Obligations.TestReadsTheMaskedBit : Prop :=
  ∀ s : State, ∃ f, exec .tst s = .next { s with t := f, spc := s.spc + 1 } ∧
    (f = true ↔ s.c &&& s.m ≠ 0#24) ∧ (∀ i, i < 24 → s.m = 1#24 <<< i → f = s.c.getLsbD i) ∧
    (s.m = 0#24 → f = false)

/-- R112 to R114: the branches, their whole next states. -/
def Obligations.BranchesSetTheIndex : Prop :=
  ∀ (target : Index) (s : State),
    exec (.b target) s = .next { s with spc := target } ∧
    (s.t = false → exec (.bf target) s = .next { s with spc := target }) ∧
    (s.t = true → exec (.bf target) s = .next { s with spc := s.spc + 1 }) ∧
    (s.m ≠ 0#24 → exec (.bnz target) s = .next { s with spc := target }) ∧
    (s.m = 0#24 → exec (.bnz target) s = .next { s with spc := s.spc + 1 })

/-- R115: RET, its whole next state; it is also the return from the handler. -/
def Obligations.ReturnEndsTheTransmission : Prop :=
  ∀ s : State, exec .ret s = .next { s with sact := false, spc := 0#5, dly := 0, hact := false }

/-- R122, R103 to R115: a sequencer operation always completes, and neither reads nor writes the scheduler's state:
with any other values there it does the same and leaves those values. -/
def Obligations.SequencerIgnoresTheScheduler : Prop :=
  ∀ (i : Instr) (s : State), i.isCommand = false →
    ∃ t, exec i s = .next t ∧
      ∀ (idle : Word) (count : Nat) (mcf ovf mcen ovfen run pinoe : Bool),
        exec i { s with idle := idle, count := count, mcf := mcf, ovf := ovf, mcen := mcen, ovfen := ovfen,
                        run := run, pinoe := pinoe } =
          .next { t with idle := idle, count := count, mcf := mcf, ovf := ovf, mcen := mcen, ovfen := ovfen,
                         run := run, pinoe := pinoe }

/-! ## Whole transmissions, under any interleaving of ticks -/

/-- R118, which the spec marks derived: one bit. -/
def Obligations.OneBitMakesOnePulse : Prop :=
  ∀ (s : State) (turns rest : List Turn) (i : Nat),
    s.rom = [] → s.sact = true → s.spc = 2#5 → s.dly = 0 → s.pin = false → i < 24 → s.m = 1#24 <<< i →
    s.turns = turns ++ rest → .reset ∉ turns →
    processorTurns s.run turns =
      (if s.c.getLsbD i then 7 + 26 * Config.unitNops else 6 + 23 * Config.unitNops) →
    ∃ t, runSteps turns.length s = .next t ∧ t.turns = rest ∧
      t.trace = s.trace ++ (if s.c.getLsbD i then pulse (14 * Config.unitNops) (12 * Config.unitNops)
        else pulse (7 * Config.unitNops) (16 * Config.unitNops)) ∧
      t.pin = false ∧ t.t = s.c.getLsbD i ∧ t.dly = 0 ∧ t.sact = true ∧
      (0 < i → t.m = 1#24 <<< (i - 1) ∧ t.spc = 2#5) ∧ (i = 0 → t.m = 0#24 ∧ t.spc = 15#5) ∧
      t.c = s.c ∧ t.im = s.im ∧ t.imsave = s.imsave

/-- R119, which the spec marks derived: the pulse-train law, from the state after `StartTx` to the state after RET,
whatever ticks interleave; no command is taken meanwhile. -/
def Obligations.TransmissionEmitsItsTrain : Prop :=
  ∀ (s : State) (turns rest : List Turn),
    s.rom = [] → s.sact = true → s.spc = 0#5 → s.dly = 0 → s.pin = false →
    s.turns = turns ++ rest → .reset ∉ turns →
    processorTurns s.run turns = transmissionSteps Config.unitNops s.c →
    ∃ t, runSteps turns.length s = .next t ∧ t.turns = rest ∧
      t.trace = s.trace ++ train Config.unitNops s.c ∧ t.pin = false ∧ t.im = s.im ∧ t.imsave = s.im ∧
      t.c = s.c ∧ t.m = 0#24 ∧ t.t = s.c.getLsbD 0 ∧ t.sact = false ∧ t.spc = 0#5 ∧ t.dly = 0 ∧ t.hact = false ∧
      t.commands = s.commands ∧ t.idle = s.idle ∧ t.pinoe = s.pinoe ∧ t.mcen = s.mcen ∧ t.ovfen = s.ovfen ∧
      t.run = s.run ∧ t.rom = []

/-- R120, which the spec marks derived: the number of SEQUENCER steps of a transmission, exactly: it is still
active after fewer, and ended after that many; with the smallest and the largest count. -/
def Obligations.TransmissionTakesExactlyItsSteps : Prop :=
  (∀ (s : State) (turns rest : List Turn),
    s.rom = [] → s.sact = true → s.spc = 0#5 → s.dly = 0 → s.turns = turns ++ rest → .reset ∉ turns →
    (processorTurns s.run turns < transmissionSteps Config.unitNops s.c →
      ∃ t, runSteps turns.length s = .next t ∧ t.sact = true ∧ t.c = s.c) ∧
    (processorTurns s.run turns = transmissionSteps Config.unitNops s.c →
      ∃ t, runSteps turns.length s = .next t ∧ t.sact = false)) ∧
  (∀ (unit : Nat) (color : Color), 148 + 552 * unit ≤ transmissionSteps unit color ∧
    transmissionSteps unit color ≤ 172 + 624 * unit)

/-- R119, which the spec marks derived: what a train is made of, most significant bit first. -/
def Obligations.TrainHasTwentyFourPulses : Prop :=
  ∀ (unit : Nat) (color : Color),
    train unit color = ((List.range 24).map fun j => if color.getLsbD (23 - j) then pulse (14 * unit) (12 * unit)
      else pulse (7 * unit) (16 * unit)).flatten ∧
    (train unit color).filter (fun e => e != .slot) = (List.replicate 24 [.pin true, .pin false]).flatten ∧
    (train unit color).count .slot = unit * (26 * ones color + 23 * (24 - ones color))

/-- R121, which the spec marks derived: no memory between transmissions: two transmissions of one colour emit the
same events, whatever the two states hold elsewhere and whatever ticks interleave. -/
def Obligations.TransmissionsOfOneColourAreIdentical : Prop :=
  ∀ (s s' : State) (turns turns' rest rest' : List Turn),
    s.rom = [] → s.sact = true → s.spc = 0#5 → s.dly = 0 → s.pin = false →
    s'.rom = [] → s'.sact = true → s'.spc = 0#5 → s'.dly = 0 → s'.pin = false → s.c = s'.c →
    s.turns = turns ++ rest → s'.turns = turns' ++ rest' → .reset ∉ turns → .reset ∉ turns' →
    processorTurns s.run turns = transmissionSteps Config.unitNops s.c →
    processorTurns s'.run turns' = transmissionSteps Config.unitNops s'.c →
    ∃ t t' events, runSteps turns.length s = .next t ∧ runSteps turns'.length s' = .next t' ∧
      t.sact = false ∧ t'.sact = false ∧ t.trace = s.trace ++ events ∧ t'.trace = s'.trace ++ events

/-! ## The scheduler -/

/-- R139: the interrupt entry, its whole next state in each branch; it is made only when `takeable` holds, and then a
flag is set, so the third branch is not reached. -/
def Obligations.EntryServicesOneFlag : Prop :=
  (∀ s : State, ProcessorSide s → takeable s = true →
    (s.mcf = true → step s = .next { afterTurn s with
      hact := true, mcf := false, c := s.idle.extractLsb' 0 24, spc := 0#5, dly := 0, sact := true }) ∧
    (s.mcf = false → step s = .next { afterTurn s with
      hact := true, ovf := false, c := 0xFFFFFF#24, spc := 0#5, dly := 0, sact := true })) ∧
  (∀ s : State, s.mcf = false → s.ovf = false → interruptEntry s = { s with hact := false }) ∧
  (∀ s : State, takeable s = true → s.mcf = true ∨ s.ovf = true) ∧
  (∀ s t : State, step s = .next t → s.hact = false → t.hact = true → takeable s = true)

/-- R146: the tick, its whole next state in each case; while the counter is not armed its turn changes nothing of
it. -/
def Obligations.TickCountsAndRaises : Prop :=
  (∀ s : State, currentTurn s = .counter → s.run = true →
    (s.count = Config.periodTicks - 1 → step s = .next { afterTurn s with count := 0, ovf := true }) ∧
    (s.count ≠ Config.periodTicks - 1 → s.count + 1 = Config.shortTicks →
      step s = .next { afterTurn s with count := s.count + 1, mcf := true }) ∧
    (s.count ≠ Config.periodTicks - 1 → s.count + 1 ≠ Config.shortTicks →
      step s = .next { afterTurn s with count := s.count + 1 })) ∧
  (∀ s t : State, currentTurn s = .counter → s.run = false → step s = .next t →
    t.count = s.count ∨ t.run = true ∧ t.count = 0)

/-- R147, which the spec marks derived: the cycle law: the count after `n` ticks, and which tick raises which
event. -/
def Obligations.CycleLawOfTicks : Prop :=
  ∀ (s : State) (n : Nat), s.count = 0 →
    (ticks n s).count = n % Config.periodTicks ∧
    ((ticks (n + 1) s).mcf = true ↔ (ticks n s).mcf = true ∨ (n + 1) % Config.periodTicks = Config.shortTicks) ∧
    ((ticks (n + 1) s).ovf = true ↔ (ticks n s).ovf = true ∨ (n + 1) % Config.periodTicks = 0)

/-- R148, which the spec marks derived, over one period: from a quiescent armed state at count 0 with interrupts
open, the short event transmits the idle colour and the rollover transmits white, each exactly once, and the block
is quiescent again. -/
def Obligations.OnePeriodFlashesIdleThenWhite : Prop :=
  ∀ (s : State) (rest : List Turn),
    SafeState s → s.run = true → quiescent s = true → s.im = false → s.count = 0 → s.commands = [] →
    s.turns = List.replicate Config.shortTicks .counter ++
      List.replicate (1 + transmissionSteps Config.unitNops (s.idle.extractLsb' 0 24)) .processor ++
      List.replicate (Config.periodTicks - Config.shortTicks) .counter ++
      List.replicate (1 + transmissionSteps Config.unitNops Config.white) .processor ++ rest →
    ∃ n t, runSteps n s = .next t ∧ t.turns = rest ∧ quiescent t = true ∧ t.im = false ∧ t.count = 0 ∧
      t.trace = s.trace ++ train Config.unitNops (s.idle.extractLsb' 0 24) ++ train Config.unitNops Config.white

/-- R138, which the spec marks derived: with both flags set at an entry the idle colour is transmitted first and
white by the next entry; nothing else is done between. -/
def Obligations.BothFlagsAreServedShortFirst : Prop :=
  ∀ (s : State) (rest : List Turn),
    SafeState s → takeable s = true → s.mcf = true → s.ovf = true →
    s.turns = List.replicate (1 + transmissionSteps Config.unitNops (s.idle.extractLsb' 0 24)) .processor ++
      List.replicate (1 + transmissionSteps Config.unitNops Config.white) .processor ++ rest →
    ∃ u t, runSteps (1 + transmissionSteps Config.unitNops (s.idle.extractLsb' 0 24)) s = .next u ∧
      takeable u = true ∧ u.mcf = false ∧ u.ovf = true ∧ u.commands = s.commands ∧
      u.trace = s.trace ++ train Config.unitNops (s.idle.extractLsb' 0 24) ∧
      runSteps (1 + transmissionSteps Config.unitNops Config.white) u = .next t ∧
      t.mcf = false ∧ t.ovf = false ∧ t.hact = false ∧ t.sact = false ∧ t.commands = s.commands ∧
      t.trace = u.trace ++ train Config.unitNops Config.white ∧ t.turns = rest

/-! ## Rules of the whole machine, over every step -/

/-- R142, R21: a transmission is never interrupted: while it runs no entry is made, no command taken, and its colour
and the idle colour do not change. -/
def Obligations.TransmissionIsNeverInterrupted : Prop :=
  ∀ s t : State, s.sact = true → currentTurn s ≠ .reset → step s = .next t →
    t.c = s.c ∧ t.commands = s.commands ∧ t.idle = s.idle ∧ (t.hact = true → s.hact = true) ∧
    (s.mcf = true → t.mcf = true) ∧ (s.ovf = true → t.ovf = true)

/-- R34, R35, R132, R133: an event flag is cleared only by the entry that services it and by START, and clearing one
leaves the other. -/
def Obligations.FlagsAreClearedOnlyByServiceOrStart : Prop :=
  ∀ s t : State, currentTurn s ≠ .reset → step s = .next t →
    (s.mcf = true → t.mcf = false →
      takeable s = true ∧ t.c = s.idle.extractLsb' 0 24 ∧ t.ovf = s.ovf ∨
      s.run = false ∧ ∃ w rest color, s.commands = w :: rest ∧ decodeCommand w = .ok (.start color)) ∧
    (s.ovf = true → t.ovf = false →
      takeable s = true ∧ s.mcf = false ∧ t.c = 0xFFFFFF#24 ∧ t.mcf = s.mcf ∨
      s.run = false ∧ ∃ w rest color, s.commands = w :: rest ∧ decodeCommand w = .ok (.start color))

/-- R30, R36, R37: nothing clears `RUN`, the two enables or `PINOE` except reset. -/
def Obligations.ArmedStateOutlastsEveryStep : Prop :=
  ∀ s t : State, currentTurn s ≠ .reset → step s = .next t →
    (s.run = true → t.run = true) ∧ (s.mcen = true → t.mcen = true) ∧ (s.ovfen = true → t.ovfen = true) ∧
    (s.pinoe = true → t.pinoe = true)

/-- R27, R94: the interrupt mask is written only by IRQSAVE, IRQREST and reset: no command, tick or entry changes
it. -/
def Obligations.InterruptMaskIsWrittenOnlyByTheBracket : Prop :=
  ∀ s t : State, currentTurn s ≠ .reset → step s = .next t → t.im ≠ s.im →
    s.sact = true ∧ ∃ w, romRead s s.spc.toNat = some w ∧
      (w = 0x14000000#32 ∧ t.im = true ∨ w = 0x15000000#32 ∧ t.im = s.imsave)

/-- R31, R144: the idle colour is written only by START and SETIDLE (and reset), whole. -/
def Obligations.IdleColourIsWrittenOnlyByCommands : Prop :=
  ∀ s t : State, currentTurn s ≠ .reset → step s = .next t → t.idle ≠ s.idle →
    hostEnabled s = true ∧ ∃ w rest, s.commands = w :: rest ∧
      (w.extractLsb' 24 8 = 0x01#8 ∨ w.extractLsb' 24 8 = 0x02#8) ∧ t.idle = (w.extractLsb' 0 24).zeroExtend 32

/-- R13, R101, R144: only a SEQUENCER step appends to the trace, at most one event; any other step can move the pin
only to low, and only as the HOST step that arms the block. What `stepper` names is tied to `step` by
`OnlyAnEnabledAgentSteps`. -/
def Obligations.OnlyTheSequencerExtendsTheTrace : Prop :=
  ∀ s t : State, currentTurn s ≠ .reset → step s = .next t →
    (t.trace = s.trace ∨ stepper s = some .sequencer ∧ ∃ e, t.trace = s.trace ++ [e]) ∧
    (stepper s ≠ some .sequencer →
      t.pin = s.pin ∨ t.pin = false ∧ stepper s = some .host ∧ s.run = false ∧ t.run = true)

/-- R29, R30: once the pin is an output the block drives the wire until reset, and only a SEQUENCER step changes the
level on it. -/
def Obligations.OnlyTheSequencerMovesADrivenWire : Prop :=
  ∀ s t : State, SafeState s → currentTurn s ≠ .reset → step s = .next t →
    (wire s ≠ none → wire t ≠ none ∧ (wire t ≠ wire s → stepper s = some .sequencer)) ∧
    (wire s = none →
      wire t = none ∨ wire t = some false ∧ stepper s = some .host ∧ s.run = false ∧ t.run = true)

/-- R51, R64: no step writes the ROM. -/
def Obligations.NoStepWritesTheRom : Prop :=
  ∀ s t : State, step s = .next t → t.rom = s.rom

/-- R130: the only refusals are HOST's: a word that spells no command, a second START, a TRANSMIT on a pin that is no
output. -/
def Obligations.RefusalsAreHostCommands : Prop :=
  ∀ (s : State) (r : Refusal), SafeState s → step s = .refused r →
    hostEnabled s = true ∧ ∃ w rest, s.commands = w :: rest ∧
      (r = .illegalCommand ∧ (∀ i, decodeCommand w ≠ .ok i) ∨
       r = .startTwice ∧ s.run = true ∧ w.extractLsb' 24 8 = 0x01#8 ∨
       r = .pinNotConfigured ∧ s.pinoe = false ∧ w.extractLsb' 24 8 = 0x03#8)

/-- R130, R51: from a state that meets the invariants no step faults. -/
def Obligations.SafeStatesNeverFault : Prop :=
  ∀ (s : State) (r : Fault), SafeState s → step s ≠ .fault r

/-- R41, which the spec marks derived: every step, whoever takes it, keeps the invariants. -/
def Obligations.StepKeepsTheInvariants : Prop :=
  ∀ s t : State, SafeState s → step s = .next t → SafeState t

/-- R41, R42: the invariants hold after reset. -/
def Obligations.ResetMeetsTheInvariants : Prop := SafeState State.reset

/-- R25, R32: under the invariants the delay counter and the counter fit their widths, whatever legal widths the
build has. -/
def Obligations.CountersFitTheirWidths : Prop :=
  ∀ s : State, SafeState s → s.dly < 2 ^ Config.dlyBits ∧ s.count < 2 ^ Config.countBits

/-- R160, R42: reset, from any state: every element the spec gives a reset value has it, and the trace is empty. (The
four registers that hold no value after reset are the model's choice, assumption 1, and are not stated.) -/
def Obligations.ResetMakesTheBlockInert : Prop :=
  ∀ s : State, currentTurn s = .reset →
    ∃ t, step s = .next t ∧ t.spc = 0#5 ∧ t.dly = 0 ∧ t.sact = false ∧ t.im = false ∧ t.pin = false ∧
      t.pinoe = false ∧ t.idle = 0#32 ∧ t.count = 0 ∧ t.mcf = false ∧ t.ovf = false ∧ t.mcen = false ∧
      t.ovfen = false ∧ t.run = false ∧ t.hact = false ∧ t.trace = [] ∧ t.rom = s.rom

/-- R162 (which the spec marks derived), R181: before START, with nothing in flight and HOST issuing nothing, any
number of steps changes no element: only the model's own turns move. -/
def Obligations.NothingMovesBeforeStart : Prop :=
  ∀ (s : State) (n : Nat),
    s.run = false → s.sact = false → s.hact = false → irq s = false → s.commands = [] → .reset ∉ s.turns →
    ∃ turns draws spent, runSteps n s = .next { s with turns := turns, draws := draws, spent := spent }

/-! ## Fairness, the end of a transmission, and the launch -/

/-- R7: SEQUENCER and COUNTER are weakly fair in every endless run, whatever words and resets come from outside in it:
an agent that stays enabled eventually steps. The agent named is the one that steps: COUNTER's step is the tick and
SEQUENCER's the sequencer step. -/
def Obligations.SequencerAndCounterAreWeaklyFair : Prop :=
  (∀ (input : Nat → Input) (run : Nat → State),
    EndlessRun input run → WeaklyFair .sequencer input run ∧ WeaklyFair .counter input run) ∧
  (∀ s : State, stepper s = some .sequencer → step s = sequencerStep (afterTurn s)) ∧
  (∀ s : State, stepper s = some .counter → step s = .next (counterStep (afterTurn s)))

/-- R7: the agent that steps is an enabled one, and the step is that agent's: the sequencer step (R100), the interrupt
entry (R139), HOST's step with its first word (R90), the tick (R146). Where no agent steps the step is a reset (R160);
or HOST issues nothing while COUNTER is not armed, and only the turn goes by (R162; assumption 4); or no agent is
enabled, and the block is stuck (assumption 9). -/
def Obligations.OnlyAnEnabledAgentSteps : Prop :=
  ∀ s : State,
    (stepper s = some .sequencer → enabled .sequencer s = true ∧ step s = sequencerStep (afterTurn s)) ∧
    (stepper s = some .dispatcher → enabled .dispatcher s = true ∧ step s = .next (interruptEntry (afterTurn s))) ∧
    (stepper s = some .host → enabled .host s = true ∧
      ∃ w rest, s.commands = w :: rest ∧ step s = hostStep w { afterTurn s with commands := rest }) ∧
    (stepper s = some .counter → enabled .counter s = true ∧ step s = .next (counterStep (afterTurn s))) ∧
    (stepper s = none →
      currentTurn s = .reset ∧ step s = .next (resetStep (afterTurn s)) ∨
      enabled .host s = true ∧ s.commands = [] ∧ s.run = false ∧ step s = .next (afterTurn s) ∨
      (∀ agent, enabled agent s = false) ∧ step s = .fault .noAgentEnabled)

/-- R165, R181, R91: at a launch START arms the block, and from then on START is refused, in the next state and in
every state a run reaches while no listed reset has been taken. The premises that the block cannot check are the
launch's (assumption 18); the one it checks is that START is called once. -/
def Obligations.StartFromTheLaunchArmsTheBlock : Prop :=
  ∀ (p : LaunchPremises) (s : State) (color : Color) (rest : List Word),
    Launch p s → ProcessorSide s → hostEnabled s = true → s.commands = encode (.start color) :: rest →
    ∃ t, step s = .next t ∧ t.run = true ∧ t.pinoe = true ∧ t.pin = false ∧ t.idle = color.zeroExtend 32 ∧
      t.count = 0 ∧ t.mcf = false ∧ t.ovf = false ∧ t.mcen = true ∧ t.ovfen = true ∧ t.commands = rest ∧
      ∀ n u, .reset ∉ t.turns.take n → runSteps n t = .next u →
        ∀ color', exec (.start color') u = .refused .startTwice

/-- R63, and R120's last sentence: every transmission ends, however the turns fall (no reset among the listed ones),
and by then has emitted its whole train; the bracket does not hold interrupts off for ever. -/
def Obligations.EveryTransmissionEnds : Prop :=
  ∀ s : State, s.rom = [] → s.sact = true → s.spc = 0#5 → s.dly = 0 → s.pin = false → .reset ∉ s.turns →
    ∃ n t, runSteps n s = .next t ∧ t.sact = false ∧ t.hact = false ∧ t.im = s.im ∧ t.c = s.c ∧
      t.commands = s.commands ∧ t.trace = s.trace ++ train Config.unitNops s.c ∧
      ∀ m u, m < n → runSteps m s = .next u → u.sact = true

/-- R26: `SACT = 1` is never permanent: from every state that meets the invariants, at whatever place in a
transmission. -/
def Obligations.SequencerActivityEnds : Prop :=
  ∀ s : State, SafeState s → s.sact = true → .reset ∉ s.turns →
    ∃ n t, runSteps n s = .next t ∧ t.sact = false ∧ t.c = s.c

/-! ## Runs without end -/

/-- R181, R92, R160: nothing bounds what comes from outside: whatever SETIDLE words and resets come, and for however
long, the block has an endless run that receives them, and each reset is taken when it comes. -/
def Obligations.EndlessWordsAndResetsAreReceived : Prop :=
  ∀ (input : Nat → Input) (s : State), SafeState s →
    (∀ w ∈ s.commands, ∃ color, w = encode (.setIdle color)) →
    (∀ n, ∀ w ∈ (input n).words, ∃ color, w = encode (.setIdle color)) →
    ∃ run, run 0 = s ∧ EndlessRun input run ∧
      ∀ n, (input n).reset = true →
        run (n + 1) = resetStep (receive { words := (input n).words, reset := false } (run n))

/-- R181, R92, R7: HOST may step for ever: before START, with nothing in flight, SETIDLE after SETIDLE without end,
each step HOST's and each colour written. -/
def Obligations.HostMaySetIdleForEver : Prop :=
  ∀ (color : Nat → Color) (s : State),
    s.run = false → s.sact = false → s.hact = false → irq s = false → s.commands = [] → .reset ∉ s.turns →
    ∃ (input : Nat → Input) (run : Nat → State),
      (∀ n, input n = { words := [encode (.setIdle (color n))], reset := false }) ∧
      run 0 = s ∧ EndlessRun input run ∧
      ∀ n, stepper (receive (input n) (run n)) = some .host ∧ (run (n + 1)).idle = (color n).zeroExtend 32
end

