-- ==== Sys2Proof/Laws/Config.lean ====
section
/-! SUPPORT. The constraints of spec/00_scope.md R9 and spec/10_state.md R25, which hold whatever the opaque constants
are, and the unit delay of R10. -/

namespace Sys2Proof.Config

theorem unitNops_pos : 1 ≤ unitNops := by unfold unitNops unitNopsAt; omega

theorem shortTicks_pos : 0 < shortTicks := by unfold shortTicks; omega

theorem shortTicks_lt_periodTicks : shortTicks < periodTicks := by unfold periodTicks; omega

theorem two_le_periodTicks : 2 ≤ periodTicks := by unfold periodTicks shortTicks; omega

theorem periodTicks_le_pow_countBits : periodTicks ≤ 2 ^ countBits :=
  (Nat.le_pow_clog (by decide) periodTicks).trans (Nat.pow_le_pow_right (by decide) (Nat.le_add_right _ _))

theorem lt_pow_dlyBits : 255 * unitNops < 2 ^ dlyBits := by
  have least : 255 * unitNops + 1 ≤ 2 ^ Nat.clog 2 (255 * unitNops + 1) := Nat.le_pow_clog (by decide) _
  have wide : 2 ^ Nat.clog 2 (255 * unitNops + 1) ≤ 2 ^ dlyBits := Nat.pow_le_pow_right (by decide) (Nat.le_add_right _ _)
  omega

theorem cpuHz_ne : cpuHz .clkA ≠ cpuHz .clkB := by simp only [cpuHz]; split <;> omega

theorem cpuHz_pos (speed : Clk) : 0 < cpuHz speed := by
  cases speed
  · exact Nat.succ_pos _
  · simp only [cpuHz]; split <;> omega

@[simp] theorem k1h_eq : k1h = 14 := by decide
@[simp] theorem k1l_eq : k1l = 12 := by decide
@[simp] theorem k0h_eq : k0h = 7 := by decide
@[simp] theorem k0l_eq : k0l = 16 := by decide

end Sys2Proof.Config
end

