-- ==== Sys2Proof/Laws/Decode.lean ====
section
/-! SUPPORT. The fields of an encoded word, and a word from its fields (spec/30_encoding.md R71, R72). -/

namespace Sys2Proof

/-- Format `W`, bit by bit. -/
theorem getLsbD_formatW (op : BitVec 8) (imm : BitVec 24) (i : Nat) :
    (formatW op imm).getLsbD i = if i < 24 then imm.getLsbD i else op.getLsbD (i - 24) :=
  BitVec.getLsbD_append.trans (by by_cases h : i < 24 <;> simp [h])

@[simp] theorem opField_formatW (op : BitVec 8) (imm : BitVec 24) : opField (formatW op imm) = op := by
  apply BitVec.eq_of_getLsbD_eq
  intro i hi
  simp [opField, getLsbD_formatW, hi]

@[simp] theorem low24_formatW (op : BitVec 8) (imm : BitVec 24) : (formatW op imm).extractLsb' 0 24 = imm := by
  apply BitVec.eq_of_getLsbD_eq
  intro i hi
  simp [getLsbD_formatW, hi]

@[simp] theorem colorField_formatW (op : BitVec 8) (imm : BitVec 24) : colorField (formatW op imm) = imm :=
  low24_formatW op imm

@[simp] theorem unitsField_formatW (op : BitVec 8) (k : Units) : unitsField (formatW op (k.zeroExtend 24)) = k := by
  apply BitVec.eq_of_getLsbD_eq
  intro i hi
  simp [unitsField, getLsbD_formatW, hi, show i < 24 by omega]

@[simp] theorem unitsZero_formatW (op : BitVec 8) (k : Units) :
    (formatW op (k.zeroExtend 24)).extractLsb' 8 16 = 0#16 := by
  apply BitVec.eq_of_getLsbD_eq
  intro i hi
  simp [getLsbD_formatW, hi, show 8 + i < 24 by omega]

@[simp] theorem targetField_formatW (op : BitVec 8) (target : Index) :
    targetField (formatW op (target.zeroExtend 24)) = target := by
  apply BitVec.eq_of_getLsbD_eq
  intro i hi
  simp [targetField, getLsbD_formatW, hi, show i < 24 by omega]

@[simp] theorem targetZero_formatW (op : BitVec 8) (target : Index) :
    (formatW op (target.zeroExtend 24)).extractLsb' 5 19 = 0#19 := by
  apply BitVec.eq_of_getLsbD_eq
  intro i hi
  simp [getLsbD_formatW, hi, show 5 + i < 24 by omega]

/-- A word is its `op` over its low 24 bits. -/
theorem formatW_fields (w : Word) : formatW (opField w) (w.extractLsb' 0 24) = w := by
  apply BitVec.eq_of_getLsbD_eq
  intro i hi
  rw [getLsbD_formatW]
  by_cases h : i < 24
  · simp [h]
  · simp [opField, h, show i - 24 < 8 by omega, show 24 + (i - 24) = i by omega]

/-- The low 24 bits of a word whose bits 23:8 are 0. -/
theorem zeroExtend_units (w : Word) (h : w.extractLsb' 8 16 = 0#16) :
    (unitsField w).zeroExtend 24 = w.extractLsb' 0 24 := by
  apply BitVec.eq_of_getLsbD_eq
  intro i hi
  by_cases hi8 : i < 8
  · simp [unitsField, hi8, hi]
  · have bit := congrArg (fun v => BitVec.getLsbD v (i - 8)) h
    simp only [BitVec.getLsbD_extractLsb', show i - 8 < 16 by omega, decide_true, Bool.true_and,
      show 8 + (i - 8) = i by omega, BitVec.getLsbD_zero] at bit
    simp [unitsField, hi8, hi, bit]

/-- The low 24 bits of a word whose bits 23:5 are 0. -/
theorem zeroExtend_target (w : Word) (h : w.extractLsb' 5 19 = 0#19) :
    (targetField w).zeroExtend 24 = w.extractLsb' 0 24 := by
  apply BitVec.eq_of_getLsbD_eq
  intro i hi
  by_cases hi5 : i < 5
  · simp [targetField, hi5, hi]
  · have bit := congrArg (fun v => BitVec.getLsbD v (i - 5)) h
    simp only [BitVec.getLsbD_extractLsb', show i - 5 < 19 by omega, decide_true, Bool.true_and,
      show 5 + (i - 5) = i by omega, BitVec.getLsbD_zero] at bit
    simp [targetField, hi5, hi, bit]

/-! The decoder, opcode by opcode. -/

theorem decode_start (w : Word) (h : opField w = 0x01#8) : decode w = .ok (.start (colorField w)) := by
  unfold decode; rw [h]; rfl
theorem decode_setIdle (w : Word) (h : opField w = 0x02#8) : decode w = .ok (.setIdle (colorField w)) := by
  unfold decode; rw [h]; rfl
theorem decode_transmit (w : Word) (h : opField w = 0x03#8) : decode w = .ok (.transmit (colorField w)) := by
  unfold decode; rw [h]; rfl
theorem decode_nop (w : Word) (h : opField w = 0x10#8) : decode w = decodeBare .nop w := by
  unfold decode; rw [h]; rfl
theorem decode_udelay (w : Word) (h : opField w = 0x11#8) : decode w = decodeUnits .udelay w := by
  unfold decode; rw [h]; rfl
theorem decode_pinHi (w : Word) (h : opField w = 0x12#8) : decode w = decodeBare .pinHi w := by
  unfold decode; rw [h]; rfl
theorem decode_pinLo (w : Word) (h : opField w = 0x13#8) : decode w = decodeBare .pinLo w := by
  unfold decode; rw [h]; rfl
theorem decode_irqSave (w : Word) (h : opField w = 0x14#8) : decode w = decodeBare .irqSave w := by
  unfold decode; rw [h]; rfl
theorem decode_irqRest (w : Word) (h : opField w = 0x15#8) : decode w = decodeBare .irqRest w := by
  unfold decode; rw [h]; rfl
theorem decode_ldMask (w : Word) (h : opField w = 0x16#8) : decode w = decodeBare .ldMask w := by
  unfold decode; rw [h]; rfl
theorem decode_tst (w : Word) (h : opField w = 0x17#8) : decode w = decodeBare .tst w := by
  unfold decode; rw [h]; rfl
theorem decode_shr (w : Word) (h : opField w = 0x18#8) : decode w = decodeBare .shr w := by
  unfold decode; rw [h]; rfl
theorem decode_b (w : Word) (h : opField w = 0x19#8) : decode w = decodeTarget .b w := by
  unfold decode; rw [h]; rfl
theorem decode_bf (w : Word) (h : opField w = 0x1A#8) : decode w = decodeTarget .bf w := by
  unfold decode; rw [h]; rfl
theorem decode_bnz (w : Word) (h : opField w = 0x1B#8) : decode w = decodeTarget .bnz w := by
  unfold decode; rw [h]; rfl
theorem decode_ret (w : Word) (h : opField w = 0x1C#8) : decode w = decodeBare .ret w := by
  unfold decode; rw [h]; rfl

/-- The opcodes of the map (R73). -/
def mappedOps : List (BitVec 8) :=
  [0x01#8, 0x02#8, 0x03#8, 0x10#8, 0x11#8, 0x12#8, 0x13#8, 0x14#8,
   0x15#8, 0x16#8, 0x17#8, 0x18#8, 0x19#8, 0x1A#8, 0x1B#8, 0x1C#8]

theorem decode_reserved (w : Word) (h : opField w ∉ mappedOps) : decode w = .error (.reservedOpcode (opField w)) := by
  simp only [mappedOps, List.mem_cons, List.not_mem_nil, or_false, not_or] at h
  unfold decode
  simp only [h, if_false]

/-- An opcode is one of the sixteen of the map, or reserved. -/
theorem opField_cases (w : Word) :
    opField w = 0x01#8 ∨ opField w = 0x02#8 ∨ opField w = 0x03#8 ∨ opField w = 0x10#8 ∨ 
    opField w = 0x11#8 ∨ opField w = 0x12#8 ∨ opField w = 0x13#8 ∨ opField w = 0x14#8 ∨ 
    opField w = 0x15#8 ∨ opField w = 0x16#8 ∨ opField w = 0x17#8 ∨ opField w = 0x18#8 ∨ 
    opField w = 0x19#8 ∨ opField w = 0x1A#8 ∨ opField w = 0x1B#8 ∨ opField w = 0x1C#8 ∨
    opField w ∉ mappedOps := by
  by_cases h : opField w ∈ mappedOps
  · simp only [mappedOps, List.mem_cons, List.not_mem_nil, or_false] at h
    simp only [← or_assoc] at h ⊢
    exact .inl h
  · simp only [h, not_false_iff, or_true]

/-- What a decoded word with no operand, with a count, or with a target says. -/
theorem decodeBare_ok {i j : Instr} {w : Word} (h : decodeBare i w = .ok j) : w.extractLsb' 0 24 = 0#24 ∧ j = i := by
  unfold decodeBare at h; split at h <;> simp_all

theorem decodeUnits_ok {f : Units → Instr} {w : Word} {j : Instr} (h : decodeUnits f w = .ok j) :
    w.extractLsb' 8 16 = 0#16 ∧ j = f (unitsField w) := by
  unfold decodeUnits at h; split at h <;> simp_all

theorem decodeTarget_ok {f : Index → Instr} {w : Word} {j : Instr} (h : decodeTarget f w = .ok j) :
    w.extractLsb' 5 19 = 0#19 ∧ targetLegal (targetField w) = true ∧ j = f (targetField w) := by
  unfold decodeTarget at h
  split at h
  · split at h
    · simp_all
    · cases h
  · cases h

/-- `onlyClass` keeps exactly the operations of the class. -/
theorem onlyClass_ok_iff {command : Bool} {r : Except DecodeError Instr} {i : Instr} :
    onlyClass command r = .ok i ↔ r = .ok i ∧ i.isCommand = command := by
  cases r with
  | error e => simp [onlyClass]
  | ok j =>
    simp only [onlyClass]
    split
    · simp only [Except.ok.injEq]
      constructor
      · rintro rfl; exact ⟨rfl, ‹_›⟩
      · exact fun h => h.1
    · simp only [reduceCtorEq, Except.ok.injEq, false_iff, not_and]
      rintro rfl; exact ‹_›

end Sys2Proof
end

