-- ==== Sys2Proof/Laws/State.lean ====
section
/-! SUPPORT. What each shared update of the state leaves in each field: one lemma a field and an update, so that no
proof unfolds a record update. The fields an update may change come first, each with its new value. -/

namespace Sys2Proof.Machine

/-! `emit`. -/

@[simp] theorem emit_c (e : Event) (s : State) : (emit e s).c = s.c := rfl
@[simp] theorem emit_m (e : Event) (s : State) : (emit e s).m = s.m := rfl
@[simp] theorem emit_t (e : Event) (s : State) : (emit e s).t = s.t := rfl
@[simp] theorem emit_spc (e : Event) (s : State) : (emit e s).spc = s.spc := rfl
@[simp] theorem emit_dly (e : Event) (s : State) : (emit e s).dly = s.dly := rfl
@[simp] theorem emit_sact (e : Event) (s : State) : (emit e s).sact = s.sact := rfl
@[simp] theorem emit_im (e : Event) (s : State) : (emit e s).im = s.im := rfl
@[simp] theorem emit_imsave (e : Event) (s : State) : (emit e s).imsave = s.imsave := rfl
@[simp] theorem emit_pin (e : Event) (s : State) : (emit e s).pin = s.pin := rfl
@[simp] theorem emit_pinoe (e : Event) (s : State) : (emit e s).pinoe = s.pinoe := rfl
@[simp] theorem emit_idle (e : Event) (s : State) : (emit e s).idle = s.idle := rfl
@[simp] theorem emit_count (e : Event) (s : State) : (emit e s).count = s.count := rfl
@[simp] theorem emit_mcf (e : Event) (s : State) : (emit e s).mcf = s.mcf := rfl
@[simp] theorem emit_ovf (e : Event) (s : State) : (emit e s).ovf = s.ovf := rfl
@[simp] theorem emit_mcen (e : Event) (s : State) : (emit e s).mcen = s.mcen := rfl
@[simp] theorem emit_ovfen (e : Event) (s : State) : (emit e s).ovfen = s.ovfen := rfl
@[simp] theorem emit_run (e : Event) (s : State) : (emit e s).run = s.run := rfl
@[simp] theorem emit_hact (e : Event) (s : State) : (emit e s).hact = s.hact := rfl
@[simp] theorem emit_trace (e : Event) (s : State) : (emit e s).trace = s.trace ++ [e] := rfl
@[simp] theorem emit_rom (e : Event) (s : State) : (emit e s).rom = s.rom := rfl
@[simp] theorem emit_commands (e : Event) (s : State) : (emit e s).commands = s.commands := rfl
@[simp] theorem emit_turns (e : Event) (s : State) : (emit e s).turns = s.turns := rfl
@[simp] theorem emit_draws (e : Event) (s : State) : (emit e s).draws = s.draws := rfl
@[simp] theorem emit_spent (e : Event) (s : State) : (emit e s).spent = s.spent := rfl

/-! `advance`. -/

@[simp] theorem advance_c (s : State) : (advance s).c = s.c := rfl
@[simp] theorem advance_m (s : State) : (advance s).m = s.m := rfl
@[simp] theorem advance_t (s : State) : (advance s).t = s.t := rfl
@[simp] theorem advance_spc (s : State) : (advance s).spc = s.spc + 1 := rfl
@[simp] theorem advance_dly (s : State) : (advance s).dly = s.dly := rfl
@[simp] theorem advance_sact (s : State) : (advance s).sact = s.sact := rfl
@[simp] theorem advance_im (s : State) : (advance s).im = s.im := rfl
@[simp] theorem advance_imsave (s : State) : (advance s).imsave = s.imsave := rfl
@[simp] theorem advance_pin (s : State) : (advance s).pin = s.pin := rfl
@[simp] theorem advance_pinoe (s : State) : (advance s).pinoe = s.pinoe := rfl
@[simp] theorem advance_idle (s : State) : (advance s).idle = s.idle := rfl
@[simp] theorem advance_count (s : State) : (advance s).count = s.count := rfl
@[simp] theorem advance_mcf (s : State) : (advance s).mcf = s.mcf := rfl
@[simp] theorem advance_ovf (s : State) : (advance s).ovf = s.ovf := rfl
@[simp] theorem advance_mcen (s : State) : (advance s).mcen = s.mcen := rfl
@[simp] theorem advance_ovfen (s : State) : (advance s).ovfen = s.ovfen := rfl
@[simp] theorem advance_run (s : State) : (advance s).run = s.run := rfl
@[simp] theorem advance_hact (s : State) : (advance s).hact = s.hact := rfl
@[simp] theorem advance_trace (s : State) : (advance s).trace = s.trace := rfl
@[simp] theorem advance_rom (s : State) : (advance s).rom = s.rom := rfl
@[simp] theorem advance_commands (s : State) : (advance s).commands = s.commands := rfl
@[simp] theorem advance_turns (s : State) : (advance s).turns = s.turns := rfl
@[simp] theorem advance_draws (s : State) : (advance s).draws = s.draws := rfl
@[simp] theorem advance_spent (s : State) : (advance s).spent = s.spent := rfl

/-! `jump`. -/

@[simp] theorem jump_c (target : Index) (s : State) : (jump target s).c = s.c := rfl
@[simp] theorem jump_m (target : Index) (s : State) : (jump target s).m = s.m := rfl
@[simp] theorem jump_t (target : Index) (s : State) : (jump target s).t = s.t := rfl
@[simp] theorem jump_spc (target : Index) (s : State) : (jump target s).spc = target := rfl
@[simp] theorem jump_dly (target : Index) (s : State) : (jump target s).dly = s.dly := rfl
@[simp] theorem jump_sact (target : Index) (s : State) : (jump target s).sact = s.sact := rfl
@[simp] theorem jump_im (target : Index) (s : State) : (jump target s).im = s.im := rfl
@[simp] theorem jump_imsave (target : Index) (s : State) : (jump target s).imsave = s.imsave := rfl
@[simp] theorem jump_pin (target : Index) (s : State) : (jump target s).pin = s.pin := rfl
@[simp] theorem jump_pinoe (target : Index) (s : State) : (jump target s).pinoe = s.pinoe := rfl
@[simp] theorem jump_idle (target : Index) (s : State) : (jump target s).idle = s.idle := rfl
@[simp] theorem jump_count (target : Index) (s : State) : (jump target s).count = s.count := rfl
@[simp] theorem jump_mcf (target : Index) (s : State) : (jump target s).mcf = s.mcf := rfl
@[simp] theorem jump_ovf (target : Index) (s : State) : (jump target s).ovf = s.ovf := rfl
@[simp] theorem jump_mcen (target : Index) (s : State) : (jump target s).mcen = s.mcen := rfl
@[simp] theorem jump_ovfen (target : Index) (s : State) : (jump target s).ovfen = s.ovfen := rfl
@[simp] theorem jump_run (target : Index) (s : State) : (jump target s).run = s.run := rfl
@[simp] theorem jump_hact (target : Index) (s : State) : (jump target s).hact = s.hact := rfl
@[simp] theorem jump_trace (target : Index) (s : State) : (jump target s).trace = s.trace := rfl
@[simp] theorem jump_rom (target : Index) (s : State) : (jump target s).rom = s.rom := rfl
@[simp] theorem jump_commands (target : Index) (s : State) : (jump target s).commands = s.commands := rfl
@[simp] theorem jump_turns (target : Index) (s : State) : (jump target s).turns = s.turns := rfl
@[simp] theorem jump_draws (target : Index) (s : State) : (jump target s).draws = s.draws := rfl
@[simp] theorem jump_spent (target : Index) (s : State) : (jump target s).spent = s.spent := rfl

/-! `drivePin`. -/

@[simp] theorem drivePin_c (level : Bool) (s : State) : (drivePin level s).c = s.c := rfl
@[simp] theorem drivePin_m (level : Bool) (s : State) : (drivePin level s).m = s.m := rfl
@[simp] theorem drivePin_t (level : Bool) (s : State) : (drivePin level s).t = s.t := rfl
@[simp] theorem drivePin_spc (level : Bool) (s : State) : (drivePin level s).spc = s.spc := rfl
@[simp] theorem drivePin_dly (level : Bool) (s : State) : (drivePin level s).dly = s.dly := rfl
@[simp] theorem drivePin_sact (level : Bool) (s : State) : (drivePin level s).sact = s.sact := rfl
@[simp] theorem drivePin_im (level : Bool) (s : State) : (drivePin level s).im = s.im := rfl
@[simp] theorem drivePin_imsave (level : Bool) (s : State) : (drivePin level s).imsave = s.imsave := rfl
@[simp] theorem drivePin_pin (level : Bool) (s : State) : (drivePin level s).pin = level := rfl
@[simp] theorem drivePin_pinoe (level : Bool) (s : State) : (drivePin level s).pinoe = s.pinoe := rfl
@[simp] theorem drivePin_idle (level : Bool) (s : State) : (drivePin level s).idle = s.idle := rfl
@[simp] theorem drivePin_count (level : Bool) (s : State) : (drivePin level s).count = s.count := rfl
@[simp] theorem drivePin_mcf (level : Bool) (s : State) : (drivePin level s).mcf = s.mcf := rfl
@[simp] theorem drivePin_ovf (level : Bool) (s : State) : (drivePin level s).ovf = s.ovf := rfl
@[simp] theorem drivePin_mcen (level : Bool) (s : State) : (drivePin level s).mcen = s.mcen := rfl
@[simp] theorem drivePin_ovfen (level : Bool) (s : State) : (drivePin level s).ovfen = s.ovfen := rfl
@[simp] theorem drivePin_run (level : Bool) (s : State) : (drivePin level s).run = s.run := rfl
@[simp] theorem drivePin_hact (level : Bool) (s : State) : (drivePin level s).hact = s.hact := rfl
@[simp] theorem drivePin_trace (level : Bool) (s : State) : (drivePin level s).trace = s.trace ++ [.pin level] := rfl
@[simp] theorem drivePin_rom (level : Bool) (s : State) : (drivePin level s).rom = s.rom := rfl
@[simp] theorem drivePin_commands (level : Bool) (s : State) : (drivePin level s).commands = s.commands := rfl
@[simp] theorem drivePin_turns (level : Bool) (s : State) : (drivePin level s).turns = s.turns := rfl
@[simp] theorem drivePin_draws (level : Bool) (s : State) : (drivePin level s).draws = s.draws := rfl
@[simp] theorem drivePin_spent (level : Bool) (s : State) : (drivePin level s).spent = s.spent := rfl

/-! `writeIdle`. -/

@[simp] theorem writeIdle_c (w : Word) (s : State) : (writeIdle w s).c = s.c := rfl
@[simp] theorem writeIdle_m (w : Word) (s : State) : (writeIdle w s).m = s.m := rfl
@[simp] theorem writeIdle_t (w : Word) (s : State) : (writeIdle w s).t = s.t := rfl
@[simp] theorem writeIdle_spc (w : Word) (s : State) : (writeIdle w s).spc = s.spc := rfl
@[simp] theorem writeIdle_dly (w : Word) (s : State) : (writeIdle w s).dly = s.dly := rfl
@[simp] theorem writeIdle_sact (w : Word) (s : State) : (writeIdle w s).sact = s.sact := rfl
@[simp] theorem writeIdle_im (w : Word) (s : State) : (writeIdle w s).im = s.im := rfl
@[simp] theorem writeIdle_imsave (w : Word) (s : State) : (writeIdle w s).imsave = s.imsave := rfl
@[simp] theorem writeIdle_pin (w : Word) (s : State) : (writeIdle w s).pin = s.pin := rfl
@[simp] theorem writeIdle_pinoe (w : Word) (s : State) : (writeIdle w s).pinoe = s.pinoe := rfl
@[simp] theorem writeIdle_idle (w : Word) (s : State) : (writeIdle w s).idle = w &&& idleBits := rfl
@[simp] theorem writeIdle_count (w : Word) (s : State) : (writeIdle w s).count = s.count := rfl
@[simp] theorem writeIdle_mcf (w : Word) (s : State) : (writeIdle w s).mcf = s.mcf := rfl
@[simp] theorem writeIdle_ovf (w : Word) (s : State) : (writeIdle w s).ovf = s.ovf := rfl
@[simp] theorem writeIdle_mcen (w : Word) (s : State) : (writeIdle w s).mcen = s.mcen := rfl
@[simp] theorem writeIdle_ovfen (w : Word) (s : State) : (writeIdle w s).ovfen = s.ovfen := rfl
@[simp] theorem writeIdle_run (w : Word) (s : State) : (writeIdle w s).run = s.run := rfl
@[simp] theorem writeIdle_hact (w : Word) (s : State) : (writeIdle w s).hact = s.hact := rfl
@[simp] theorem writeIdle_trace (w : Word) (s : State) : (writeIdle w s).trace = s.trace := rfl
@[simp] theorem writeIdle_rom (w : Word) (s : State) : (writeIdle w s).rom = s.rom := rfl
@[simp] theorem writeIdle_commands (w : Word) (s : State) : (writeIdle w s).commands = s.commands := rfl
@[simp] theorem writeIdle_turns (w : Word) (s : State) : (writeIdle w s).turns = s.turns := rfl
@[simp] theorem writeIdle_draws (w : Word) (s : State) : (writeIdle w s).draws = s.draws := rfl
@[simp] theorem writeIdle_spent (w : Word) (s : State) : (writeIdle w s).spent = s.spent := rfl

/-! `startTx`. -/

@[simp] theorem startTx_c (color : Color) (s : State) : (startTx color s).c = color := rfl
@[simp] theorem startTx_m (color : Color) (s : State) : (startTx color s).m = s.m := rfl
@[simp] theorem startTx_t (color : Color) (s : State) : (startTx color s).t = s.t := rfl
@[simp] theorem startTx_spc (color : Color) (s : State) : (startTx color s).spc = 0#5 := rfl
@[simp] theorem startTx_dly (color : Color) (s : State) : (startTx color s).dly = 0 := rfl
@[simp] theorem startTx_sact (color : Color) (s : State) : (startTx color s).sact = true := rfl
@[simp] theorem startTx_im (color : Color) (s : State) : (startTx color s).im = s.im := rfl
@[simp] theorem startTx_imsave (color : Color) (s : State) : (startTx color s).imsave = s.imsave := rfl
@[simp] theorem startTx_pin (color : Color) (s : State) : (startTx color s).pin = s.pin := rfl
@[simp] theorem startTx_pinoe (color : Color) (s : State) : (startTx color s).pinoe = s.pinoe := rfl
@[simp] theorem startTx_idle (color : Color) (s : State) : (startTx color s).idle = s.idle := rfl
@[simp] theorem startTx_count (color : Color) (s : State) : (startTx color s).count = s.count := rfl
@[simp] theorem startTx_mcf (color : Color) (s : State) : (startTx color s).mcf = s.mcf := rfl
@[simp] theorem startTx_ovf (color : Color) (s : State) : (startTx color s).ovf = s.ovf := rfl
@[simp] theorem startTx_mcen (color : Color) (s : State) : (startTx color s).mcen = s.mcen := rfl
@[simp] theorem startTx_ovfen (color : Color) (s : State) : (startTx color s).ovfen = s.ovfen := rfl
@[simp] theorem startTx_run (color : Color) (s : State) : (startTx color s).run = s.run := rfl
@[simp] theorem startTx_hact (color : Color) (s : State) : (startTx color s).hact = s.hact := rfl
@[simp] theorem startTx_trace (color : Color) (s : State) : (startTx color s).trace = s.trace := rfl
@[simp] theorem startTx_rom (color : Color) (s : State) : (startTx color s).rom = s.rom := rfl
@[simp] theorem startTx_commands (color : Color) (s : State) : (startTx color s).commands = s.commands := rfl
@[simp] theorem startTx_turns (color : Color) (s : State) : (startTx color s).turns = s.turns := rfl
@[simp] theorem startTx_draws (color : Color) (s : State) : (startTx color s).draws = s.draws := rfl
@[simp] theorem startTx_spent (color : Color) (s : State) : (startTx color s).spent = s.spent := rfl

/-! `endTransmission`. -/

@[simp] theorem endTransmission_c (s : State) : (endTransmission s).c = s.c := rfl
@[simp] theorem endTransmission_m (s : State) : (endTransmission s).m = s.m := rfl
@[simp] theorem endTransmission_t (s : State) : (endTransmission s).t = s.t := rfl
@[simp] theorem endTransmission_spc (s : State) : (endTransmission s).spc = 0#5 := rfl
@[simp] theorem endTransmission_dly (s : State) : (endTransmission s).dly = 0 := rfl
@[simp] theorem endTransmission_sact (s : State) : (endTransmission s).sact = false := rfl
@[simp] theorem endTransmission_im (s : State) : (endTransmission s).im = s.im := rfl
@[simp] theorem endTransmission_imsave (s : State) : (endTransmission s).imsave = s.imsave := rfl
@[simp] theorem endTransmission_pin (s : State) : (endTransmission s).pin = s.pin := rfl
@[simp] theorem endTransmission_pinoe (s : State) : (endTransmission s).pinoe = s.pinoe := rfl
@[simp] theorem endTransmission_idle (s : State) : (endTransmission s).idle = s.idle := rfl
@[simp] theorem endTransmission_count (s : State) : (endTransmission s).count = s.count := rfl
@[simp] theorem endTransmission_mcf (s : State) : (endTransmission s).mcf = s.mcf := rfl
@[simp] theorem endTransmission_ovf (s : State) : (endTransmission s).ovf = s.ovf := rfl
@[simp] theorem endTransmission_mcen (s : State) : (endTransmission s).mcen = s.mcen := rfl
@[simp] theorem endTransmission_ovfen (s : State) : (endTransmission s).ovfen = s.ovfen := rfl
@[simp] theorem endTransmission_run (s : State) : (endTransmission s).run = s.run := rfl
@[simp] theorem endTransmission_hact (s : State) : (endTransmission s).hact = false := by
  simp [endTransmission]
@[simp] theorem endTransmission_trace (s : State) : (endTransmission s).trace = s.trace := rfl
@[simp] theorem endTransmission_rom (s : State) : (endTransmission s).rom = s.rom := rfl
@[simp] theorem endTransmission_commands (s : State) : (endTransmission s).commands = s.commands := rfl
@[simp] theorem endTransmission_turns (s : State) : (endTransmission s).turns = s.turns := rfl
@[simp] theorem endTransmission_draws (s : State) : (endTransmission s).draws = s.draws := rfl
@[simp] theorem endTransmission_spent (s : State) : (endTransmission s).spent = s.spent := rfl

/-! `resetStep`. -/

@[simp] theorem resetStep_c (s : State) : (resetStep s).c = State.reset.c := rfl
@[simp] theorem resetStep_m (s : State) : (resetStep s).m = State.reset.m := rfl
@[simp] theorem resetStep_t (s : State) : (resetStep s).t = State.reset.t := rfl
@[simp] theorem resetStep_spc (s : State) : (resetStep s).spc = State.reset.spc := rfl
@[simp] theorem resetStep_dly (s : State) : (resetStep s).dly = State.reset.dly := rfl
@[simp] theorem resetStep_sact (s : State) : (resetStep s).sact = State.reset.sact := rfl
@[simp] theorem resetStep_im (s : State) : (resetStep s).im = State.reset.im := rfl
@[simp] theorem resetStep_imsave (s : State) : (resetStep s).imsave = State.reset.imsave := rfl
@[simp] theorem resetStep_pin (s : State) : (resetStep s).pin = State.reset.pin := rfl
@[simp] theorem resetStep_pinoe (s : State) : (resetStep s).pinoe = State.reset.pinoe := rfl
@[simp] theorem resetStep_idle (s : State) : (resetStep s).idle = State.reset.idle := rfl
@[simp] theorem resetStep_count (s : State) : (resetStep s).count = State.reset.count := rfl
@[simp] theorem resetStep_mcf (s : State) : (resetStep s).mcf = State.reset.mcf := rfl
@[simp] theorem resetStep_ovf (s : State) : (resetStep s).ovf = State.reset.ovf := rfl
@[simp] theorem resetStep_mcen (s : State) : (resetStep s).mcen = State.reset.mcen := rfl
@[simp] theorem resetStep_ovfen (s : State) : (resetStep s).ovfen = State.reset.ovfen := rfl
@[simp] theorem resetStep_run (s : State) : (resetStep s).run = State.reset.run := rfl
@[simp] theorem resetStep_hact (s : State) : (resetStep s).hact = State.reset.hact := rfl
@[simp] theorem resetStep_trace (s : State) : (resetStep s).trace = State.reset.trace := rfl
@[simp] theorem resetStep_rom (s : State) : (resetStep s).rom = s.rom := rfl
@[simp] theorem resetStep_commands (s : State) : (resetStep s).commands = s.commands := rfl
@[simp] theorem resetStep_turns (s : State) : (resetStep s).turns = s.turns := rfl
@[simp] theorem resetStep_draws (s : State) : (resetStep s).draws = s.draws := rfl
@[simp] theorem resetStep_spent (s : State) : (resetStep s).spent = s.spent := rfl

/-! `counterStep`: only `COUNT` and the two event flags can change. -/

@[simp] theorem counterStep_c (s : State) : (counterStep s).c = s.c := by
  unfold counterStep tick; split <;> rfl
@[simp] theorem counterStep_m (s : State) : (counterStep s).m = s.m := by
  unfold counterStep tick; split <;> rfl
@[simp] theorem counterStep_t (s : State) : (counterStep s).t = s.t := by
  unfold counterStep tick; split <;> rfl
@[simp] theorem counterStep_spc (s : State) : (counterStep s).spc = s.spc := by
  unfold counterStep tick; split <;> rfl
@[simp] theorem counterStep_dly (s : State) : (counterStep s).dly = s.dly := by
  unfold counterStep tick; split <;> rfl
@[simp] theorem counterStep_sact (s : State) : (counterStep s).sact = s.sact := by
  unfold counterStep tick; split <;> rfl
@[simp] theorem counterStep_im (s : State) : (counterStep s).im = s.im := by
  unfold counterStep tick; split <;> rfl
@[simp] theorem counterStep_imsave (s : State) : (counterStep s).imsave = s.imsave := by
  unfold counterStep tick; split <;> rfl
@[simp] theorem counterStep_pin (s : State) : (counterStep s).pin = s.pin := by
  unfold counterStep tick; split <;> rfl
@[simp] theorem counterStep_pinoe (s : State) : (counterStep s).pinoe = s.pinoe := by
  unfold counterStep tick; split <;> rfl
@[simp] theorem counterStep_idle (s : State) : (counterStep s).idle = s.idle := by
  unfold counterStep tick; split <;> rfl
@[simp] theorem counterStep_mcen (s : State) : (counterStep s).mcen = s.mcen := by
  unfold counterStep tick; split <;> rfl
@[simp] theorem counterStep_ovfen (s : State) : (counterStep s).ovfen = s.ovfen := by
  unfold counterStep tick; split <;> rfl
@[simp] theorem counterStep_run (s : State) : (counterStep s).run = s.run := by
  unfold counterStep tick; split <;> rfl
@[simp] theorem counterStep_hact (s : State) : (counterStep s).hact = s.hact := by
  unfold counterStep tick; split <;> rfl
@[simp] theorem counterStep_trace (s : State) : (counterStep s).trace = s.trace := by
  unfold counterStep tick; split <;> rfl
@[simp] theorem counterStep_rom (s : State) : (counterStep s).rom = s.rom := by
  unfold counterStep tick; split <;> rfl
@[simp] theorem counterStep_commands (s : State) : (counterStep s).commands = s.commands := by
  unfold counterStep tick; split <;> rfl
@[simp] theorem counterStep_turns (s : State) : (counterStep s).turns = s.turns := by
  unfold counterStep tick; split <;> rfl
@[simp] theorem counterStep_draws (s : State) : (counterStep s).draws = s.draws := by
  unfold counterStep tick; split <;> rfl
@[simp] theorem counterStep_spent (s : State) : (counterStep s).spent = s.spent := by
  unfold counterStep tick; split <;> rfl

/-! `interruptEntry`: only `HACT`, one event flag and what `startTx` writes can change. -/

@[simp] theorem interruptEntry_m (s : State) : (interruptEntry s).m = s.m := by
  unfold interruptEntry; (repeat' split) <;> rfl
@[simp] theorem interruptEntry_t (s : State) : (interruptEntry s).t = s.t := by
  unfold interruptEntry; (repeat' split) <;> rfl
@[simp] theorem interruptEntry_im (s : State) : (interruptEntry s).im = s.im := by
  unfold interruptEntry; (repeat' split) <;> rfl
@[simp] theorem interruptEntry_imsave (s : State) : (interruptEntry s).imsave = s.imsave := by
  unfold interruptEntry; (repeat' split) <;> rfl
@[simp] theorem interruptEntry_pin (s : State) : (interruptEntry s).pin = s.pin := by
  unfold interruptEntry; (repeat' split) <;> rfl
@[simp] theorem interruptEntry_pinoe (s : State) : (interruptEntry s).pinoe = s.pinoe := by
  unfold interruptEntry; (repeat' split) <;> rfl
@[simp] theorem interruptEntry_idle (s : State) : (interruptEntry s).idle = s.idle := by
  unfold interruptEntry; (repeat' split) <;> rfl
@[simp] theorem interruptEntry_count (s : State) : (interruptEntry s).count = s.count := by
  unfold interruptEntry; (repeat' split) <;> rfl
@[simp] theorem interruptEntry_mcen (s : State) : (interruptEntry s).mcen = s.mcen := by
  unfold interruptEntry; (repeat' split) <;> rfl
@[simp] theorem interruptEntry_ovfen (s : State) : (interruptEntry s).ovfen = s.ovfen := by
  unfold interruptEntry; (repeat' split) <;> rfl
@[simp] theorem interruptEntry_run (s : State) : (interruptEntry s).run = s.run := by
  unfold interruptEntry; (repeat' split) <;> rfl
@[simp] theorem interruptEntry_trace (s : State) : (interruptEntry s).trace = s.trace := by
  unfold interruptEntry; (repeat' split) <;> rfl
@[simp] theorem interruptEntry_rom (s : State) : (interruptEntry s).rom = s.rom := by
  unfold interruptEntry; (repeat' split) <;> rfl
@[simp] theorem interruptEntry_commands (s : State) : (interruptEntry s).commands = s.commands := by
  unfold interruptEntry; (repeat' split) <;> rfl
@[simp] theorem interruptEntry_turns (s : State) : (interruptEntry s).turns = s.turns := by
  unfold interruptEntry; (repeat' split) <;> rfl
@[simp] theorem interruptEntry_draws (s : State) : (interruptEntry s).draws = s.draws := by
  unfold interruptEntry; (repeat' split) <;> rfl
@[simp] theorem interruptEntry_spent (s : State) : (interruptEntry s).spent = s.spent := by
  unfold interruptEntry; (repeat' split) <;> rfl

/-! `delayStep`: only `DLY`, `SPC` and the trace can change. -/

@[simp] theorem delayStep_c (n : Nat) (s : State) : (delayStep n s).c = s.c := by
  simp only [delayStep]; (repeat' split) <;> rfl
@[simp] theorem delayStep_m (n : Nat) (s : State) : (delayStep n s).m = s.m := by
  simp only [delayStep]; (repeat' split) <;> rfl
@[simp] theorem delayStep_t (n : Nat) (s : State) : (delayStep n s).t = s.t := by
  simp only [delayStep]; (repeat' split) <;> rfl
@[simp] theorem delayStep_sact (n : Nat) (s : State) : (delayStep n s).sact = s.sact := by
  simp only [delayStep]; (repeat' split) <;> rfl
@[simp] theorem delayStep_im (n : Nat) (s : State) : (delayStep n s).im = s.im := by
  simp only [delayStep]; (repeat' split) <;> rfl
@[simp] theorem delayStep_imsave (n : Nat) (s : State) : (delayStep n s).imsave = s.imsave := by
  simp only [delayStep]; (repeat' split) <;> rfl
@[simp] theorem delayStep_pin (n : Nat) (s : State) : (delayStep n s).pin = s.pin := by
  simp only [delayStep]; (repeat' split) <;> rfl
@[simp] theorem delayStep_pinoe (n : Nat) (s : State) : (delayStep n s).pinoe = s.pinoe := by
  simp only [delayStep]; (repeat' split) <;> rfl
@[simp] theorem delayStep_idle (n : Nat) (s : State) : (delayStep n s).idle = s.idle := by
  simp only [delayStep]; (repeat' split) <;> rfl
@[simp] theorem delayStep_count (n : Nat) (s : State) : (delayStep n s).count = s.count := by
  simp only [delayStep]; (repeat' split) <;> rfl
@[simp] theorem delayStep_mcf (n : Nat) (s : State) : (delayStep n s).mcf = s.mcf := by
  simp only [delayStep]; (repeat' split) <;> rfl
@[simp] theorem delayStep_ovf (n : Nat) (s : State) : (delayStep n s).ovf = s.ovf := by
  simp only [delayStep]; (repeat' split) <;> rfl
@[simp] theorem delayStep_mcen (n : Nat) (s : State) : (delayStep n s).mcen = s.mcen := by
  simp only [delayStep]; (repeat' split) <;> rfl
@[simp] theorem delayStep_ovfen (n : Nat) (s : State) : (delayStep n s).ovfen = s.ovfen := by
  simp only [delayStep]; (repeat' split) <;> rfl
@[simp] theorem delayStep_run (n : Nat) (s : State) : (delayStep n s).run = s.run := by
  simp only [delayStep]; (repeat' split) <;> rfl
@[simp] theorem delayStep_hact (n : Nat) (s : State) : (delayStep n s).hact = s.hact := by
  simp only [delayStep]; (repeat' split) <;> rfl
@[simp] theorem delayStep_rom (n : Nat) (s : State) : (delayStep n s).rom = s.rom := by
  simp only [delayStep]; (repeat' split) <;> rfl
@[simp] theorem delayStep_commands (n : Nat) (s : State) : (delayStep n s).commands = s.commands := by
  simp only [delayStep]; (repeat' split) <;> rfl
@[simp] theorem delayStep_turns (n : Nat) (s : State) : (delayStep n s).turns = s.turns := by
  simp only [delayStep]; (repeat' split) <;> rfl
@[simp] theorem delayStep_draws (n : Nat) (s : State) : (delayStep n s).draws = s.draws := by
  simp only [delayStep]; (repeat' split) <;> rfl
@[simp] theorem delayStep_spent (n : Nat) (s : State) : (delayStep n s).spent = s.spent := by
  simp only [delayStep]; (repeat' split) <;> rfl

/-! `afterFreeTurn`: only the place among the free turns can change. -/

@[simp] theorem afterFreeTurn_c (s : State) : (afterFreeTurn s).c = s.c := by
  unfold afterFreeTurn; split <;> rfl
@[simp] theorem afterFreeTurn_m (s : State) : (afterFreeTurn s).m = s.m := by
  unfold afterFreeTurn; split <;> rfl
@[simp] theorem afterFreeTurn_t (s : State) : (afterFreeTurn s).t = s.t := by
  unfold afterFreeTurn; split <;> rfl
@[simp] theorem afterFreeTurn_spc (s : State) : (afterFreeTurn s).spc = s.spc := by
  unfold afterFreeTurn; split <;> rfl
@[simp] theorem afterFreeTurn_dly (s : State) : (afterFreeTurn s).dly = s.dly := by
  unfold afterFreeTurn; split <;> rfl
@[simp] theorem afterFreeTurn_sact (s : State) : (afterFreeTurn s).sact = s.sact := by
  unfold afterFreeTurn; split <;> rfl
@[simp] theorem afterFreeTurn_im (s : State) : (afterFreeTurn s).im = s.im := by
  unfold afterFreeTurn; split <;> rfl
@[simp] theorem afterFreeTurn_imsave (s : State) : (afterFreeTurn s).imsave = s.imsave := by
  unfold afterFreeTurn; split <;> rfl
@[simp] theorem afterFreeTurn_pin (s : State) : (afterFreeTurn s).pin = s.pin := by
  unfold afterFreeTurn; split <;> rfl
@[simp] theorem afterFreeTurn_pinoe (s : State) : (afterFreeTurn s).pinoe = s.pinoe := by
  unfold afterFreeTurn; split <;> rfl
@[simp] theorem afterFreeTurn_idle (s : State) : (afterFreeTurn s).idle = s.idle := by
  unfold afterFreeTurn; split <;> rfl
@[simp] theorem afterFreeTurn_count (s : State) : (afterFreeTurn s).count = s.count := by
  unfold afterFreeTurn; split <;> rfl
@[simp] theorem afterFreeTurn_mcf (s : State) : (afterFreeTurn s).mcf = s.mcf := by
  unfold afterFreeTurn; split <;> rfl
@[simp] theorem afterFreeTurn_ovf (s : State) : (afterFreeTurn s).ovf = s.ovf := by
  unfold afterFreeTurn; split <;> rfl
@[simp] theorem afterFreeTurn_mcen (s : State) : (afterFreeTurn s).mcen = s.mcen := by
  unfold afterFreeTurn; split <;> rfl
@[simp] theorem afterFreeTurn_ovfen (s : State) : (afterFreeTurn s).ovfen = s.ovfen := by
  unfold afterFreeTurn; split <;> rfl
@[simp] theorem afterFreeTurn_run (s : State) : (afterFreeTurn s).run = s.run := by
  unfold afterFreeTurn; split <;> rfl
@[simp] theorem afterFreeTurn_hact (s : State) : (afterFreeTurn s).hact = s.hact := by
  unfold afterFreeTurn; split <;> rfl
@[simp] theorem afterFreeTurn_trace (s : State) : (afterFreeTurn s).trace = s.trace := by
  unfold afterFreeTurn; split <;> rfl
@[simp] theorem afterFreeTurn_rom (s : State) : (afterFreeTurn s).rom = s.rom := by
  unfold afterFreeTurn; split <;> rfl
@[simp] theorem afterFreeTurn_commands (s : State) : (afterFreeTurn s).commands = s.commands := by
  unfold afterFreeTurn; split <;> rfl
@[simp] theorem afterFreeTurn_turns (s : State) : (afterFreeTurn s).turns = s.turns := by
  unfold afterFreeTurn; split <;> rfl

/-! `afterTurn`: only the turns and the place among the free turns can change. -/

@[simp] theorem afterTurn_c (s : State) : (afterTurn s).c = s.c := by
  unfold afterTurn; split <;> simp
@[simp] theorem afterTurn_m (s : State) : (afterTurn s).m = s.m := by
  unfold afterTurn; split <;> simp
@[simp] theorem afterTurn_t (s : State) : (afterTurn s).t = s.t := by
  unfold afterTurn; split <;> simp
@[simp] theorem afterTurn_spc (s : State) : (afterTurn s).spc = s.spc := by
  unfold afterTurn; split <;> simp
@[simp] theorem afterTurn_dly (s : State) : (afterTurn s).dly = s.dly := by
  unfold afterTurn; split <;> simp
@[simp] theorem afterTurn_sact (s : State) : (afterTurn s).sact = s.sact := by
  unfold afterTurn; split <;> simp
@[simp] theorem afterTurn_im (s : State) : (afterTurn s).im = s.im := by
  unfold afterTurn; split <;> simp
@[simp] theorem afterTurn_imsave (s : State) : (afterTurn s).imsave = s.imsave := by
  unfold afterTurn; split <;> simp
@[simp] theorem afterTurn_pin (s : State) : (afterTurn s).pin = s.pin := by
  unfold afterTurn; split <;> simp
@[simp] theorem afterTurn_pinoe (s : State) : (afterTurn s).pinoe = s.pinoe := by
  unfold afterTurn; split <;> simp
@[simp] theorem afterTurn_idle (s : State) : (afterTurn s).idle = s.idle := by
  unfold afterTurn; split <;> simp
@[simp] theorem afterTurn_count (s : State) : (afterTurn s).count = s.count := by
  unfold afterTurn; split <;> simp
@[simp] theorem afterTurn_mcf (s : State) : (afterTurn s).mcf = s.mcf := by
  unfold afterTurn; split <;> simp
@[simp] theorem afterTurn_ovf (s : State) : (afterTurn s).ovf = s.ovf := by
  unfold afterTurn; split <;> simp
@[simp] theorem afterTurn_mcen (s : State) : (afterTurn s).mcen = s.mcen := by
  unfold afterTurn; split <;> simp
@[simp] theorem afterTurn_ovfen (s : State) : (afterTurn s).ovfen = s.ovfen := by
  unfold afterTurn; split <;> simp
@[simp] theorem afterTurn_run (s : State) : (afterTurn s).run = s.run := by
  unfold afterTurn; split <;> simp
@[simp] theorem afterTurn_hact (s : State) : (afterTurn s).hact = s.hact := by
  unfold afterTurn; split <;> simp
@[simp] theorem afterTurn_trace (s : State) : (afterTurn s).trace = s.trace := by
  unfold afterTurn; split <;> simp
@[simp] theorem afterTurn_rom (s : State) : (afterTurn s).rom = s.rom := by
  unfold afterTurn; split <;> simp
@[simp] theorem afterTurn_commands (s : State) : (afterTurn s).commands = s.commands := by
  unfold afterTurn; split <;> simp

/-! `receive`: only HOST's words and the turns can change. -/

@[simp] theorem receive_c (input : Input) (s : State) : (receive input s).c = s.c := rfl
@[simp] theorem receive_m (input : Input) (s : State) : (receive input s).m = s.m := rfl
@[simp] theorem receive_t (input : Input) (s : State) : (receive input s).t = s.t := rfl
@[simp] theorem receive_spc (input : Input) (s : State) : (receive input s).spc = s.spc := rfl
@[simp] theorem receive_dly (input : Input) (s : State) : (receive input s).dly = s.dly := rfl
@[simp] theorem receive_sact (input : Input) (s : State) : (receive input s).sact = s.sact := rfl
@[simp] theorem receive_im (input : Input) (s : State) : (receive input s).im = s.im := rfl
@[simp] theorem receive_imsave (input : Input) (s : State) : (receive input s).imsave = s.imsave := rfl
@[simp] theorem receive_pin (input : Input) (s : State) : (receive input s).pin = s.pin := rfl
@[simp] theorem receive_pinoe (input : Input) (s : State) : (receive input s).pinoe = s.pinoe := rfl
@[simp] theorem receive_idle (input : Input) (s : State) : (receive input s).idle = s.idle := rfl
@[simp] theorem receive_count (input : Input) (s : State) : (receive input s).count = s.count := rfl
@[simp] theorem receive_mcf (input : Input) (s : State) : (receive input s).mcf = s.mcf := rfl
@[simp] theorem receive_ovf (input : Input) (s : State) : (receive input s).ovf = s.ovf := rfl
@[simp] theorem receive_mcen (input : Input) (s : State) : (receive input s).mcen = s.mcen := rfl
@[simp] theorem receive_ovfen (input : Input) (s : State) : (receive input s).ovfen = s.ovfen := rfl
@[simp] theorem receive_run (input : Input) (s : State) : (receive input s).run = s.run := rfl
@[simp] theorem receive_hact (input : Input) (s : State) : (receive input s).hact = s.hact := rfl
@[simp] theorem receive_trace (input : Input) (s : State) : (receive input s).trace = s.trace := rfl
@[simp] theorem receive_rom (input : Input) (s : State) : (receive input s).rom = s.rom := rfl
@[simp] theorem receive_commands (input : Input) (s : State) : (receive input s).commands = s.commands ++ input.words := rfl
@[simp] theorem receive_turns (input : Input) (s : State) : (receive input s).turns = if input.reset then .reset :: s.turns else s.turns := rfl
@[simp] theorem receive_draws (input : Input) (s : State) : (receive input s).draws = s.draws := rfl
@[simp] theorem receive_spent (input : Input) (s : State) : (receive input s).spent = s.spent := rfl

end Sys2Proof.Machine
end

