-- ==== Sys2Proof/Laws/Ops.lean ====
section
/-! SUPPORT. What the shared operations do, once each: the ROM cells and their canonical form, the idle colour's
word, the delay step, the interrupt entry and the tick. -/

namespace Sys2Proof.Machine

/-! The ROM cells. -/

theorem cellsFrom_mono {low low' : Nat} (h : low' ≤ low) {mem : Memory} (wf : cellsFrom low mem = true) :
    cellsFrom low' mem = true := by
  cases mem with
  | nil => rfl
  | cons cell rest =>
    simp only [cellsFrom, Bool.and_eq_true, decide_eq_true_eq] at wf ⊢
    exact ⟨⟨⟨by omega, wf.1.1.2⟩, wf.1.2⟩, wf.2⟩

theorem cellsFrom_consCell {low i : Nat} {w : Word} {rest : Memory} (hlow : low ≤ i) (hi : i < Config.romLen)
    (wf : cellsFrom (i + 1) rest = true) : cellsFrom low (consCell i w rest) = true := by
  unfold consCell
  split
  · exact cellsFrom_mono (by omega) wf
  · simp only [cellsFrom, Bool.and_eq_true, decide_eq_true_eq]
    exact ⟨⟨⟨hlow, hi⟩, ‹_›⟩, wf⟩

theorem cellsFrom_writeCell {low i : Nat} {w : Word} {mem : Memory} (hlow : low ≤ i) (hi : i < Config.romLen)
    (wf : cellsFrom low mem = true) : cellsFrom low (writeCell mem i w) = true := by
  induction mem generalizing low with
  | nil => exact cellsFrom_consCell hlow hi rfl
  | cons cell rest ih =>
    obtain ⟨j, v⟩ := cell
    have whole := wf
    simp only [cellsFrom, Bool.and_eq_true, decide_eq_true_eq] at wf
    obtain ⟨⟨⟨hj, hlen⟩, hv⟩, hrest⟩ := wf
    simp only [writeCell]
    split
    · refine cellsFrom_consCell hlow hi ?_
      simp only [cellsFrom, Bool.and_eq_true, decide_eq_true_eq]
      exact ⟨⟨⟨by omega, hlen⟩, hv⟩, hrest⟩
    · split
      · subst i
        exact cellsFrom_consCell hlow hi hrest
      · simp only [cellsFrom, Bool.and_eq_true, decide_eq_true_eq]
        exact ⟨⟨⟨hj, hlen⟩, hv⟩, ih (by omega) hrest⟩

/-- Placing a word keeps the canonical form of the cells. -/
theorem romPlace_wf {i : Nat} {w : Word} {s : State} (wf : Memory.wf s.rom = true) :
    Memory.wf (romPlace i w s).rom = true := by
  unfold romPlace
  split
  · exact cellsFrom_writeCell (Nat.zero_le _) ‹_› wf
  · exact wf

theorem readCell_below {low i : Nat} {mem : Memory} (wf : cellsFrom low mem = true) (h : i < low) :
    readCell mem i = romDefault i := by
  induction mem generalizing low with
  | nil => rfl
  | cons cell rest ih =>
    obtain ⟨j, v⟩ := cell
    simp only [cellsFrom, Bool.and_eq_true, decide_eq_true_eq] at wf
    simp only [readCell]
    rw [if_neg (by omega)]
    exact ih wf.2 (by omega)

theorem readCell_consCell {i j : Nat} {w : Word} {rest : Memory} (wf : cellsFrom (i + 1) rest = true) :
    readCell (consCell i w rest) j = if j = i then w else readCell rest j := by
  unfold consCell
  split
  · split
    · subst j; rw [readCell_below wf (Nat.lt_succ_self i), ‹w = _›]
    · rfl
  · rfl

/-- A cell reads as the word last written to it, and every other cell as before. -/
theorem readCell_writeCell {low i j : Nat} {w : Word} {mem : Memory} (wf : cellsFrom low mem = true) :
    readCell (writeCell mem i w) j = if j = i then w else readCell mem j := by
  induction mem generalizing low with
  | nil => exact readCell_consCell rfl
  | cons cell rest ih =>
    obtain ⟨k, v⟩ := cell
    simp only [cellsFrom, Bool.and_eq_true, decide_eq_true_eq] at wf
    obtain ⟨⟨⟨hk, hlen⟩, hv⟩, hrest⟩ := wf
    simp only [writeCell]
    split
    · refine readCell_consCell ?_
      simp only [cellsFrom, Bool.and_eq_true, decide_eq_true_eq]
      exact ⟨⟨⟨by omega, hlen⟩, hv⟩, hrest⟩
    · split
      · subst k
        rw [readCell_consCell hrest]
        simp only [readCell]
        split <;> rfl
      · simp only [readCell, ih hrest]
        by_cases hjk : j = k
        · subst k; simp only [if_true]; rw [if_neg (by omega)]
        · simp only [if_neg hjk]

/-! The idle colour's word. -/

@[simp] theorem colorWord_and_idleBits (color : Color) : colorWord color &&& idleBits = colorWord color := by
  apply BitVec.eq_of_getLsbD_eq
  intro i hi
  simp only [colorWord, idleBits, BitVec.getLsbD_and, BitVec.truncate_eq_setWidth, BitVec.getLsbD_setWidth]
  by_cases h : i < 24
  · have : (0x00FFFFFF#32).getLsbD i = true := by
      revert h; revert i; decide
    simp [this]
  · simp [BitVec.getLsbD_of_ge color i (by omega)]

@[simp] theorem colorWord_low (color : Color) : (colorWord color).extractLsb' 0 24 = color := by
  apply BitVec.eq_of_getLsbD_eq
  intro i hi
  simp [colorWord, hi]
  omega

/-- What is written to `IDLE` is what reads from it, but for the bits that do not exist. -/
@[simp] theorem readIdle_writeIdle (w : Word) (s : State) : readIdle (writeIdle w s) = w &&& idleBits := by
  simp [readIdle, BitVec.and_assoc]

@[simp] theorem idleColor_writeIdle (color : Color) (s : State) : idleColor (writeIdle (colorWord color) s) = color := by
  simp [idleColor]

/-! The delay step. -/

/-- Everything a delay step can do: no slot at all, the last slot, or a slot before the last. -/
theorem delayStep_cases (n : Nat) (s : State) :
    n = 0 ∧ delayStep n s = advance s ∨
    n ≠ 0 ∧ (if s.dly = 0 then n else s.dly) = 1 ∧ delayStep n s = advance { emit .slot s with dly := 0 } ∨
    n ≠ 0 ∧ (if s.dly = 0 then n else s.dly) ≠ 1 ∧
      delayStep n s = { emit .slot s with dly := (if s.dly = 0 then n else s.dly) - 1 } := by
  by_cases hn : n = 0
  · exact .inl ⟨hn, by simp [delayStep, hn]⟩
  · by_cases hr : (if s.dly = 0 then n else s.dly) = 1
    · exact .inr (.inl ⟨hn, hr, by simp only [delayStep, if_neg hn, if_pos hr]⟩)
    · exact .inr (.inr ⟨hn, hr, by simp only [delayStep, if_neg hn, if_neg hr]⟩)

/-! The interrupt entry and the tick. -/

/-- Everything an interrupt entry can do: the short event, else the rollover event, else nothing. -/
theorem interruptEntry_cases (s : State) :
    s.mcf = true ∧ interruptEntry s = startTx (idleColor s) { s with hact := true, mcf := false } ∨
    s.mcf = false ∧ s.ovf = true ∧ interruptEntry s = startTx Config.white { s with hact := true, ovf := false } ∨
    s.mcf = false ∧ s.ovf = false ∧ interruptEntry s = { s with hact := false } := by
  unfold interruptEntry
  cases hm : s.mcf
  · cases ho : s.ovf
    · exact .inr (.inr ⟨rfl, rfl, rfl⟩)
    · exact .inr (.inl ⟨rfl, rfl, rfl⟩)
  · exact .inl ⟨rfl, rfl⟩

/-- Everything a tick can do: the rollover, or one more with the short event where the count becomes the compare
value. -/
theorem tick_cases (period short : Nat) (s : State) :
    s.count = period - 1 ∧ tick period short s = { s with count := 0, ovf := true } ∨
    s.count ≠ period - 1 ∧ s.count + 1 = short ∧
      tick period short s = { s with count := s.count + 1, mcf := true } ∨
    s.count ≠ period - 1 ∧ s.count + 1 ≠ short ∧ tick period short s = { s with count := s.count + 1 } := by
  by_cases hp : s.count = period - 1
  · exact .inl ⟨hp, by simp only [tick, if_pos hp]⟩
  · by_cases hs : s.count + 1 = short
    · exact .inr (.inl ⟨hp, hs, by simp only [tick, if_neg hp, if_pos hs]⟩)
    · exact .inr (.inr ⟨hp, hs, by simp only [tick, if_neg hp, if_neg hs]⟩)

/-- `takeable` spelled out. -/
theorem takeable_iff (s : State) :
    takeable s = true ↔ irq s = true ∧ s.im = false ∧ s.hact = false ∧ s.sact = false := by
  simp [takeable, and_assoc]

/-- `hostEnabled` spelled out. -/
theorem hostEnabled_iff (s : State) :
    hostEnabled s = true ↔ s.sact = false ∧ s.hact = false ∧ takeable s = false := by
  simp [hostEnabled, and_assoc]

end Sys2Proof.Machine
end

