-- ==== Sys2Proof/Laws/PerInstr.lean ====
section
/-! SUPPORT. What holds of every operation as syntax, one lemma a constructor: its word matches its row of the opcode
map, `w & mask = match` (spec/30_encoding.md R73). -/

namespace Sys2Proof.Laws.RowMatch

/-- The word of an operation is in its row. -/
def Statement (i : Instr) : Prop := encode i &&& i.row.mask = i.row.pattern

theorem and_formatW (op op' : BitVec 8) (a b : BitVec 24) :
    formatW op a &&& formatW op' b = formatW (op &&& op') (a &&& b) := by
  apply BitVec.eq_of_getLsbD_eq
  intro i hi
  simp only [BitVec.getLsbD_and, getLsbD_formatW]
  split <;> rfl

theorem zeroExtend_target_and (target : Index) : target.zeroExtend 24 &&& 0xFFFFE0#24 = 0#24 := by
  revert target; decide

theorem zeroExtend_units_and (k : Units) : k.zeroExtend 24 &&& 0xFFFF00#24 = 0#24 := by
  revert k; decide

theorem color_row (op : BitVec 8) (c : Color) : encodeColor op c &&& formatW 0xFF#8 0#24 = formatW op 0#24 := by
  rw [encodeColor, and_formatW]
  congr 1
  · exact BitVec.and_allOnes
  · exact BitVec.and_zero

theorem target_row (op : BitVec 8) (target : Index) :
    encodeTarget op target &&& formatW 0xFF#8 0xFFFFE0#24 = formatW op 0#24 := by
  rw [encodeTarget, and_formatW, zeroExtend_target_and]
  congr 1
  exact BitVec.and_allOnes

theorem units_row (op : BitVec 8) (k : Units) :
    encodeUnits op k &&& formatW 0xFF#8 0xFFFF00#24 = formatW op 0#24 := by
  rw [encodeUnits, and_formatW, zeroExtend_units_and]
  congr 1
  exact BitVec.and_allOnes

theorem start (color : Color) : Statement (.start color) := color_row _ color

theorem setIdle (color : Color) : Statement (.setIdle color) := color_row _ color

theorem transmit (color : Color) : Statement (.transmit color) := color_row _ color

theorem nop : Statement .nop := rfl

theorem udelay (k : Units) : Statement (.udelay k) := units_row _ k

theorem pinHi : Statement .pinHi := rfl

theorem pinLo : Statement .pinLo := rfl

theorem irqSave : Statement .irqSave := rfl

theorem irqRest : Statement .irqRest := rfl

theorem ldMask : Statement .ldMask := rfl

theorem tst : Statement .tst := rfl

theorem shr : Statement .shr := rfl

theorem b (target : Index) : Statement (.b target) := target_row _ target

theorem bf (target : Index) : Statement (.bf target) := target_row _ target

theorem bnz (target : Index) : Statement (.bnz target) := target_row _ target

theorem ret : Statement .ret := rfl

end Sys2Proof.Laws.RowMatch
end

