-- ==== Sys2Proof/Laws/Step.lean ====
section
/-! SUPPORT. What a step can do, said once (`step_cases`), and what the sequencer runs from the listing of
spec/41_sequencer.md R117. -/

namespace Sys2Proof.Machine

/-- The assembly of R117. -/
def listingAt : Nat → Instr
  | 0 => .irqSave
  | 1 => .ldMask
  | 2 => .tst
  | 3 => .bf 9#5
  | 4 => .pinHi
  | 5 => .udelay 14#8
  | 6 => .pinLo
  | 7 => .udelay 12#8
  | 8 => .b 13#5
  | 9 => .pinHi
  | 10 => .udelay 7#8
  | 11 => .pinLo
  | 12 => .udelay 16#8
  | 13 => .shr
  | 14 => .bnz 2#5
  | 15 => .irqRest
  | _ => .ret

theorem decodeRom_listing : ∀ i, i < 17 → decodeRom (romDefault i) = .ok (listingAt i) := by
  intro i hi
  interval_cases i <;> rfl

/-- With the ROM at its listing, a SEQUENCER step performs the listing's operation. -/
theorem sequencerStep_listing {s : State} (rom : s.rom = []) (index : s.spc.toNat ≤ 16) :
    sequencerStep s = exec (listingAt s.spc.toNat) s := by
  have len : s.spc.toNat < Config.romLen := by unfold Config.romLen; omega
  simp only [sequencerStep, romRead, if_pos len, rom, readCell, decodeRom_listing _ (show s.spc.toNat < 17 by omega)]

/-- What a step of HOST can do: a decoded command's meaning, or the refusal of a word that spells none. -/
theorem hostStep_cases (w : Word) (s : State) :
    (∃ i, decodeCommand w = .ok i ∧ hostStep w s = exec i s) ∨
    (∃ e, decodeCommand w = .error e ∧ hostStep w s = .refused .illegalCommand) := by
  cases h : decodeCommand w with
  | ok i => exact .inl ⟨i, rfl, by simp only [hostStep, h]⟩
  | error e => exact .inr ⟨e, rfl, by simp only [hostStep, h]⟩

/-- What a step of SEQUENCER can do. -/
theorem sequencerStep_cases (s : State) :
    (romRead s s.spc.toNat = none ∧ sequencerStep s = .fault .romIndex) ∨
    (∃ w i, romRead s s.spc.toNat = some w ∧ decodeRom w = .ok i ∧ sequencerStep s = exec i s) ∨
    (∃ w e, romRead s s.spc.toNat = some w ∧ decodeRom w = .error e ∧ sequencerStep s = .refused .illegalCommand) := by
  cases hr : romRead s s.spc.toNat with
  | none => exact .inl ⟨rfl, by simp only [sequencerStep, hr]⟩
  | some w =>
    cases hd : decodeRom w with
    | ok i => exact .inr (.inl ⟨w, i, rfl, hd, by simp only [sequencerStep, hr, hd]⟩)
    | error e => exact .inr (.inr ⟨w, e, rfl, hd, by simp only [sequencerStep, hr, hd]⟩)

/-- What the processor side can do in its turn: exactly one of SEQUENCER, DISPATCHER, HOST with a word, HOST silent,
or, where none of them is enabled, COUNTER or nobody. -/
theorem processorStep_cases (s : State) :
    (s.sact = true ∧ processorStep s = sequencerStep s) ∨
    (takeable s = true ∧ processorStep s = .next (interruptEntry s)) ∨
    (∃ w rest, hostEnabled s = true ∧ s.commands = w :: rest ∧
      processorStep s = hostStep w { s with commands := rest }) ∨
    (hostEnabled s = true ∧ s.commands = [] ∧ s.run = true ∧ processorStep s = .next (counterStep s)) ∨
    (hostEnabled s = true ∧ s.commands = [] ∧ s.run = false ∧ processorStep s = .next s) ∨
    (s.sact = false ∧ s.hact = true ∧ s.run = true ∧ processorStep s = .next (counterStep s)) ∨
    (s.sact = false ∧ s.hact = true ∧ s.run = false ∧ processorStep s = .fault .noAgentEnabled) := by
  cases hs : s.sact
  · cases ht : takeable s
    · cases hh : s.hact
      · have host : hostEnabled s = true := (hostEnabled_iff s).2 ⟨hs, hh, ht⟩
        cases hc : s.commands with
        | nil =>
          cases hr : s.run <;> simp [processorStep, sequencerEnabled, hs, ht, host, hostTurn, hc, hr]
        | cons w rest =>
          refine .inr (.inr (.inl ⟨w, rest, host, rfl, ?_⟩))
          unfold processorStep sequencerEnabled hostTurn
          rw [if_neg (by simp [hs]), if_neg (by simp [ht]), if_pos host, hc]
          simp only [hs, hh]
      · have host : hostEnabled s = false := by simp [hostEnabled, hh]
        cases hr : s.run <;> simp [processorStep, sequencerEnabled, counterEnabled, hs, ht, host, hr]
    · simp [processorStep, sequencerEnabled, hs, ht]
  · simp [processorStep, sequencerEnabled, hs]

/-- Everything a step that answers a next state can be. -/
theorem step_cases {s s' : State} (h : step s = .next s') :
    (currentTurn s = .reset ∧ s' = resetStep (afterTurn s)) ∨
    (s.run = true ∧ s' = counterStep (afterTurn s)) ∨
    (s.sact = true ∧ ∃ w i, romRead s s.spc.toNat = some w ∧ decodeRom w = .ok i ∧ exec i (afterTurn s) = .next s') ∨
    (takeable s = true ∧ s' = interruptEntry (afterTurn s)) ∨
    (hostEnabled s = true ∧ ∃ w rest i, s.commands = w :: rest ∧ decodeCommand w = .ok i ∧
      exec i { afterTurn s with commands := rest } = .next s') ∨
    (hostEnabled s = true ∧ s.commands = [] ∧ s.run = false ∧ s' = afterTurn s) := by
  have htake : takeable (afterTurn s) = takeable s := by simp [takeable, irq]
  have hhost : hostEnabled (afterTurn s) = hostEnabled s := by simp [hostEnabled, htake]
  have hread : romRead (afterTurn s) (afterTurn s).spc.toNat = romRead s s.spc.toNat := by simp [romRead]
  have side : processorStep (afterTurn s) = .next s' →
      (s.run = true ∧ s' = counterStep (afterTurn s)) ∨
      (s.sact = true ∧ ∃ w i, romRead s s.spc.toNat = some w ∧ decodeRom w = .ok i ∧
        exec i (afterTurn s) = .next s') ∨
      (takeable s = true ∧ s' = interruptEntry (afterTurn s)) ∨
      (hostEnabled s = true ∧ ∃ w rest i, s.commands = w :: rest ∧ decodeCommand w = .ok i ∧
        exec i { afterTurn s with commands := rest } = .next s') ∨
      (hostEnabled s = true ∧ s.commands = [] ∧ s.run = false ∧ s' = afterTurn s) := by
    intro hp
    rcases processorStep_cases (afterTurn s) with ⟨hs, e⟩ | ⟨ht, e⟩ | ⟨w, rest, hh, hc, e⟩ | ⟨hh, hc, hr, e⟩ |
      ⟨hh, hc, hr, e⟩ | ⟨hs, hh, hr, e⟩ | ⟨hs, hh, hr, e⟩ <;> rw [e] at hp
    · rcases sequencerStep_cases (afterTurn s) with ⟨_, e'⟩ | ⟨w, i, hw, hd, e'⟩ | ⟨_, _, _, _, e'⟩ <;> rw [e'] at hp
      · cases hp
      · exact .inr (.inl ⟨by simpa using hs, w, i, hread ▸ hw, hd, hp⟩)
      · cases hp
    · cases hp; exact .inr (.inr (.inl ⟨htake ▸ ht, rfl⟩))
    · rcases hostStep_cases w { afterTurn s with commands := rest } with ⟨i, hd, e'⟩ | ⟨_, _, e'⟩ <;> rw [e'] at hp
      · exact .inr (.inr (.inr (.inl ⟨hhost ▸ hh, w, rest, i, by simpa using hc, hd, hp⟩)))
      · cases hp
    · cases hp; exact .inl ⟨by simpa using hr, rfl⟩
    · cases hp; exact .inr (.inr (.inr (.inr ⟨hhost ▸ hh, by simpa using hc, by simpa using hr, rfl⟩)))
    · cases hp; exact .inl ⟨by simpa using hr, rfl⟩
    · cases hp
  have hstep : agentStep (currentTurn s) (afterTurn s) = .next s' := h
  cases hturn : currentTurn s <;> rw [hturn] at hstep
  · exact .inr (side hstep)
  · cases hr : (afterTurn s).run
    · exact .inr (side (by simpa only [agentStep, counterEnabled, hr, Bool.false_eq_true, if_false] using hstep))
    · simp only [agentStep, counterEnabled, hr, if_true] at hstep
      cases hstep
      exact .inr (.inl ⟨by simpa using hr, rfl⟩)
  · cases hstep; exact .inl ⟨rfl, rfl⟩

/-- What a step is that is no reset. -/
theorem step_cases_of_no_reset {s s' : State} (turn : currentTurn s ≠ .reset) (h : step s = .next s') :
    (s.run = true ∧ s' = counterStep (afterTurn s)) ∨
    (s.sact = true ∧ ∃ w i, romRead s s.spc.toNat = some w ∧ decodeRom w = .ok i ∧ exec i (afterTurn s) = .next s') ∨
    (takeable s = true ∧ s' = interruptEntry (afterTurn s)) ∨
    (hostEnabled s = true ∧ ∃ w rest i, s.commands = w :: rest ∧ decodeCommand w = .ok i ∧
      exec i { afterTurn s with commands := rest } = .next s') ∨
    (hostEnabled s = true ∧ s.commands = [] ∧ s.run = false ∧ s' = afterTurn s) := by
  rcases step_cases h with ⟨h, _⟩ | h
  · exact absurd h turn
  · exact h

/-- What no sequencer operation changes, and the two that write the interrupt mask. -/
theorem exec_sequencer_frame {i : Instr} (s : State) (hi : i.isCommand = false) :
    ∃ t, exec i s = .next t ∧ t.c = s.c ∧ t.pinoe = s.pinoe ∧ t.idle = s.idle ∧ t.count = s.count ∧ t.mcf = s.mcf ∧
      t.ovf = s.ovf ∧ t.mcen = s.mcen ∧ t.ovfen = s.ovfen ∧ t.run = s.run ∧ (t.hact = true → s.hact = true) ∧
      t.rom = s.rom ∧ t.commands = s.commands ∧ t.turns = s.turns ∧ t.draws = s.draws ∧
      t.spent = s.spent ∧
      (t.trace = s.trace ∨ ∃ e, t.trace = s.trace ++ [e]) ∧
      (t.im = s.im ∨ i = .irqSave ∧ t.im = true ∨ i = .irqRest ∧ t.im = s.imsave) := by
  cases i <;> simp [Instr.isCommand] at hi <;> refine ⟨_, rfl, ?_⟩
  case udelay k =>
    rcases delayStep_cases (slotCount Config.unitNops k) s with ⟨_, e⟩ | ⟨_, _, e⟩ | ⟨_, _, e⟩ <;> rw [e] <;> simp
  case bf target => split <;> simp
  case bnz target => split <;> simp
  all_goals simp

/-! The turns. -/

/-- A free turn is no reset. -/
theorem freeTurn_ne_reset (s : State) : freeTurn s ≠ .reset := by
  unfold freeTurn; split <;> simp

/-- What the end of a free turn changes. -/
theorem afterFreeTurn_eq (s : State) : ∃ draws spent, afterFreeTurn s = { s with draws := draws, spent := spent } := by
  unfold afterFreeTurn; split <;> exact ⟨_, _, rfl⟩

/-- No reset comes next where none is listed. -/
theorem currentTurn_ne_reset {s : State} (h : .reset ∉ s.turns) : currentTurn s ≠ .reset := by
  unfold currentTurn
  split
  · rename_i e
    rw [e] at h
    exact fun eq => h (eq ▸ List.mem_cons_self)
  · exact freeTurn_ne_reset s

/-- Taking a turn lists no new one. -/
theorem afterTurn_turns_subset (s : State) : ∀ turn ∈ (afterTurn s).turns, turn ∈ s.turns := by
  intro turn h
  unfold afterTurn at h
  split at h
  · rename_i e
    rw [e]
    exact List.mem_cons_of_mem _ h
  · simpa using h

/-- While a transmission runs, the turn falls to the processor side in its own burst. -/
theorem freeTurn_of_active {s : State} (h : s.sact = true) :
    freeTurn s = if counterBurst s.draws then .counter else .processor := by
  simp [freeTurn, h]

/-- In its own burst the turn is COUNTER's. -/
theorem freeTurn_of_counterBurst {s : State} (h : counterBurst s.draws = true) : freeTurn s = .counter := by
  simp [freeTurn, h]

/-- The bursts alternate. -/
theorem counterBurst_succ (n : Nat) : counterBurst (n + 1) = !counterBurst n := by
  unfold counterBurst
  rcases Nat.mod_two_eq_zero_or_one n with h | h
  · rw [h, show (n + 1) % 2 = 1 by omega]; cases Config.freeFirst <;> rfl
  · rw [h, show (n + 1) % 2 = 0 by omega]; cases Config.freeFirst <;> rfl

/-- Whoever steps, the turns go on as `afterTurn` says. -/
theorem step_turns {s s' : State} (h : step s = .next s') :
    s'.turns = (afterTurn s).turns ∧ s'.draws = (afterTurn s).draws ∧ s'.spent = (afterTurn s).spent := by
  rcases step_cases h with ⟨_, e⟩ | ⟨_, e⟩ | ⟨_, _, i, _, hd, e⟩ | ⟨_, e⟩ | ⟨_, _, _, i, _, hd, e⟩ | ⟨_, _, _, e⟩
  · subst e; simp
  · subst e; simp
  · obtain ⟨t, et, hf⟩ := exec_sequencer_frame (afterTurn s) (onlyClass_ok_iff.1 hd).2
    rw [e] at et; cases et
    exact ⟨by simp [hf], by simp [hf], by simp [hf]⟩
  · subst e; simp
  · have hc := (onlyClass_ok_iff.1 hd).2
    cases i <;> simp [Instr.isCommand] at hc <;> simp only [exec, execStart, execSetIdle, execTransmit] at e
    · split at e <;> cases e; simp
    · cases e; simp
    · split at e <;> cases e; simp
  · subst e; exact ⟨rfl, rfl, rfl⟩

end Sys2Proof.Machine
end

