-- ==== Sys2Proof/Laws/Runs.lean ====
section
/-! SUPPORT. Runs of several steps, and who steps when the processor side has the turn. -/

namespace Sys2Proof.Machine

@[simp] theorem runSteps_zero (s : State) : runSteps 0 s = .next s := rfl

theorem coreRun_next {M : Host.Core} {s t : M.State} (n : Nat) (h : M.step s = .next t) :
    M.run (n + 1) s = M.run n t := by
  simp only [Host.Core.run, h]

theorem coreRun_next_inv {M : Host.Core} {s t : M.State} {n : Nat} (h : M.run (n + 1) s = .next t) :
    ∃ s', M.step s = .next s' ∧ M.run n s' = .next t := by
  cases e : M.step s with
  | next s' => exact ⟨s', rfl, by simpa only [Host.Core.run, e] using h⟩
  | fault r => simp only [Host.Core.run, e] at h; cases h
  | refused r => simp only [Host.Core.run, e] at h; cases h

/-- The first step of a run. -/
theorem runSteps_succ {s t : State} (n : Nat) (h : step s = .next t) : runSteps (n + 1) s = runSteps n t :=
  coreRun_next (M := Sys2Proof.core) n h

/-- A run in two parts. -/
theorem runSteps_add {m n : Nat} {s t : State} (h : runSteps m s = .next t) : runSteps (m + n) s = runSteps n t := by
  induction m generalizing s with
  | zero => cases h; simp
  | succ m ih =>
    obtain ⟨s', first, later⟩ := coreRun_next_inv (M := Sys2Proof.core) h
    rw [Nat.add_right_comm, runSteps_succ _ first]
    exact ih later

/-- Taking a listed turn. -/
theorem turn_cons {s : State} {turn : Turn} {rest : List Turn} (h : s.turns = turn :: rest) :
    currentTurn s = turn ∧ afterTurn s = { s with turns := rest } := by
  simp [currentTurn, afterTurn, h]

/-- With the turn on the processor side, a step is the processor side's. -/
theorem step_processorSide {s : State} (h : ProcessorSide s) : step s = processorStep (afterTurn s) := by
  change agentStep (currentTurn s) (afterTurn s) = _
  rcases h with h | ⟨h, hr⟩ <;> rw [h]
  · rfl
  · simp [agentStep, counterEnabled, hr]

/-- An armed counter's turn is a tick. -/
theorem step_counter {s : State} (h : currentTurn s = .counter) (hr : s.run = true) :
    step s = .next (counterStep (afterTurn s)) := by
  change agentStep (currentTurn s) (afterTurn s) = _
  rw [h]
  simp [agentStep, counterEnabled, hr]

/-- The active sequencer steps. -/
theorem step_sequencer {s : State} (h : ProcessorSide s) (hs : s.sact = true) :
    step s = sequencerStep (afterTurn s) := by
  rw [step_processorSide h]
  simp [processorStep, sequencerEnabled, hs]

/-- An interrupt that can be taken is. -/
theorem step_entry {s : State} (h : ProcessorSide s) (ht : takeable s = true) :
    step s = .next (interruptEntry (afterTurn s)) := by
  rw [step_processorSide h]
  have hs := ((takeable_iff s).1 ht).2.2.2
  have : takeable (afterTurn s) = true := by simpa [takeable, irq] using ht
  simp [processorStep, sequencerEnabled, hs, this]

/-- Turns of the processor side are all its steps, whether or not the counter is armed. -/
@[simp] theorem processorTurns_replicate (armed : Bool) (n : Nat) :
    processorTurns armed (List.replicate n .processor) = n := by
  induction n with
  | zero => rfl
  | succ n ih => simp only [List.replicate_succ, processorTurns, ih, Nat.add_comm]

/-- No turn of the processor side is a reset. -/
theorem reset_notMem_replicate (n : Nat) : Turn.reset ∉ List.replicate n Turn.processor := by
  intro h
  cases List.eq_of_mem_replicate h

/-! Runs without end: what comes from outside. -/

/-- A reset from outside is taken in this very step, and takes no one's turn. -/
theorem step_receive_reset {input : Input} (s : State) (h : input.reset = true) :
    step (receive input s) = .next (resetStep (receive { words := input.words, reset := false } s)) := by
  have listed : (receive input s).turns = .reset :: s.turns := by simp [h]
  obtain ⟨turn, later⟩ := turn_cons listed
  change agentStep (currentTurn _) (afterTurn _) = _
  rw [turn, later]
  rfl

/-- Words from outside move no turn: where no reset comes, the turns of a run go on as `afterTurn` says. -/
theorem step_receive_turns {input : Input} {s s' : State} (quiet : input.reset = false)
    (h : step (receive input s) = .next s') :
    s'.turns = (afterTurn s).turns ∧ s'.draws = (afterTurn s).draws ∧ s'.spent = (afterTurn s).spent := by
  obtain ⟨turns, draws, spent⟩ := step_turns h
  rw [turns, draws, spent]
  unfold afterTurn receive afterFreeTurn
  simp only [quiet, Bool.false_eq_true, if_false]
  cases s.turns <;> simp
  split <;> simp

/-- A tick leaves everything but the count and the two event flags. -/
theorem counterStep_flags (s : State) :
    (s.mcf = true → (counterStep s).mcf = true) ∧ (s.ovf = true → (counterStep s).ovf = true) := by
  rcases tick_cases Config.periodTicks Config.shortTicks s with ⟨_, e⟩ | ⟨_, _, e⟩ | ⟨_, _, e⟩ <;>
    unfold counterStep <;> rw [e] <;> simp_all

end Sys2Proof.Machine
end

