-- ==== Sys2Proof/Tests/Slice0.lean ====
section
/-! SUPPORT. Tests of the model on small states, with the results that spec/95_test_vectors.md lists (its vector is
named in each comment), and for every obligation with hypotheses a concrete state that meets them. -/

open Sys2Proof Sys2Proof.Machine

namespace Sys2Proof.Tests

/-- The next state of an outcome, if it is one. -/
def next? : Out → Option State
  | .next s => some s
  | .fault _ => none
  | .refused _ => none

/-- The refusal of an outcome, if it is one. -/
def refusal? : Out → Option Refusal
  | .refused r => some r
  | .next _ => none
  | .fault _ => none

/-- `ARMED(i)` of spec/95_test_vectors.md. -/
def armed (idle : Color) : State :=
  { State.reset with pinoe := true, idle := idle.zeroExtend 32, mcen := true, ovfen := true, run := true }

/-- The armed block in a transmission of a colour, at an index, the processor side's turn next. -/
def sending (color mask : Color) (index : Index) : State :=
  { armed 0#24 with c := color, m := mask, spc := index, sact := true, im := true, turns := [.processor] }

/-- The armed block with given flags and command words, one turn listed. -/
def waiting (mcf ovf : Bool) (turn : Turn) (commands : List Word) : State :=
  { armed 0x00FF00#24 with mcf := mcf, ovf := ovf, turns := [turn], commands := commands }

/-! ## WellFormed -/

theorem test_wellFormed_targets : (Instr.b 16#5).wellFormed = true ∧ (Instr.bf 0#5).wellFormed = true ∧
    (Instr.bnz 16#5).wellFormed = true := by decide
theorem test_illFormed_b : (Instr.b 17#5).wellFormed = false := by decide
theorem test_illFormed_bf : (Instr.bf 17#5).wellFormed = false := by decide
theorem test_illFormed_bnz : (Instr.bnz 31#5).wellFormed = false := by decide

/-! ## Decoding: words written out from R71 and R73, `op` over `imm` -/

theorem test_decode_start : decode 0b00000001_000000001111111100000000#32 = .ok (.start 0x00FF00#24) := by rfl
theorem test_decode_setIdle : decode 0b00000010_000000001111111100000000#32 = .ok (.setIdle 0x00FF00#24) := by rfl
theorem test_decode_transmit : decode 0b00000011_100000000000000000000000#32 = .ok (.transmit 0x800000#24) := by rfl
theorem test_decode_nop : decode 0b00010000_000000000000000000000000#32 = .ok .nop := by rfl
theorem test_decode_udelay : decode 0b00010001_000000000000000000001110#32 = .ok (.udelay 14#8) := by rfl
theorem test_decode_pinHi : decode 0b00010010_000000000000000000000000#32 = .ok .pinHi := by rfl
theorem test_decode_pinLo : decode 0b00010011_000000000000000000000000#32 = .ok .pinLo := by rfl
theorem test_decode_irqSave : decode 0b00010100_000000000000000000000000#32 = .ok .irqSave := by rfl
theorem test_decode_irqRest : decode 0b00010101_000000000000000000000000#32 = .ok .irqRest := by rfl
theorem test_decode_ldMask : decode 0b00010110_000000000000000000000000#32 = .ok .ldMask := by rfl
theorem test_decode_tst : decode 0b00010111_000000000000000000000000#32 = .ok .tst := by rfl
theorem test_decode_shr : decode 0b00011000_000000000000000000000000#32 = .ok .shr := by rfl
theorem test_decode_b : decode 0b00011001_000000000000000000010000#32 = .ok (.b 16#5) := by rfl
theorem test_decode_bf : decode 0b00011010_000000000000000000001001#32 = .ok (.bf 9#5) := by rfl
theorem test_decode_bnz : decode 0b00011011_000000000000000000000010#32 = .ok (.bnz 2#5) := by rfl
theorem test_decode_ret : decode 0b00011100_000000000000000000000000#32 = .ok .ret := by rfl

/-- V-E12: `k = 0` is legal. -/
theorem test_decode_udelay_zero : decode 0x11000000#32 = .ok (.udelay 0#8) := by rfl
/-- V-E6 to V-E8 and V-E19: reserved opcodes. -/
theorem test_decode_reserved : decode 0x00000000#32 = .error (.reservedOpcode 0x00#8) ∧
    decode 0x04000000#32 = .error (.reservedOpcode 0x04#8) ∧
    decode 0xFFFFFFFF#32 = .error (.reservedOpcode 0xFF#8) ∧
    decode 0x1D000000#32 = .error (.reservedOpcode 0x1D#8) := ⟨rfl, rfl, rfl, rfl⟩
/-- V-E9, V-E10: sequencer words on the command port; R74: a command word in the ROM. -/
theorem test_decode_wrong_place : decodeCommand 0x10000000#32 = .error .wrongPlace ∧
    decodeCommand 0x1C000000#32 = .error .wrongPlace ∧ decodeRom 0x01000000#32 = .error .wrongPlace :=
  ⟨rfl, rfl, rfl⟩
/-- V-E13, V-E16 to V-E18: must-be-zero bits and the reserved targets. -/
theorem test_decode_reserved_bits : decode 0x11000100#32 = .error (.reservedBits 0x11#8) ∧
    decode 0x19000011#32 = .error (.reservedTarget 17#5) ∧ decode 0x19000020#32 = .error (.reservedBits 0x19#8) ∧
    decode 0x12000001#32 = .error (.reservedBits 0x12#8) := ⟨rfl, rfl, rfl, rfl⟩
/-- The listing of R117 is the assembly beside it. -/
theorem test_rom_listing : romListing = ((List.range 17).map fun i => encode (listingAt i)) := by decide
/-- The opcode table's rows read as the host numbers them; a bit beyond the word makes it none. -/
theorem test_decodeTableWord : decodeTableWord 32 0x1A000009 = some (.bf 9#5) ∧
    decodeTableWord 32 0x19000011 = none ∧ decodeTableWord 40 0x0110000000 = none := by decide

/-! ## R8, R10 -/

theorem test_unit_multiples : (Config.unitNs, Config.k1h, Config.k1l, Config.k0h, Config.k0l) = (50, 14, 12, 7, 16) := by
  decide
theorem test_first_mask : Config.msbMask = 1#24 <<< 23 := by decide

/-! ## Each placed word is run by the very next step after reset -/

/-- Whether the word, placed in the state after reset, is run to a next state. -/
def runsFirst (w : Nat) : Bool := (next? (step (State.reset.withFetchWord 32 w))).isSome

theorem test_first_commands : runsFirst 0x0100FF00 = true ∧ runsFirst 0x0200FF00 = true := by decide
/-- V7: after reset TRANSMIT is run and refused. -/
theorem test_first_transmit :
    refusal? (step (State.reset.withFetchWord 32 0x03FFFFFF)) = some .pinNotConfigured := by decide
theorem test_first_sequencer : [0x10000000, 0x11000007, 0x12000000, 0x13000000, 0x14000000, 0x15000000, 0x16000000,
    0x17000000, 0x18000000, 0x19000010, 0x1A000009, 0x1B000002, 0x1C000000].all runsFirst = true := by decide
/-- V20: and with its effect. -/
theorem test_first_nop : (next? (step (State.reset.withFetchWord 32 0x10000000))).map (fun s => (s.trace, s.spc)) =
    some ([.slot], 1#5) := by decide

/-! ## Commands -/

/-- V2. -/
theorem test_start : exec (.start 0x00FF00#24) State.reset = .next (armed 0x00FF00#24) := by rfl
/-- V4. -/
theorem test_start_twice : refusal? (exec (.start 0xFFFFFF#24) (armed 0#24)) = some .startTwice := by decide
/-- V6. -/
theorem test_setIdle : (next? (exec (.setIdle 0xFFFFFF#24) (armed 0#24))).map (fun s => (s.idle, s.run)) =
    some (0x00FFFFFF#32, true) := by decide
/-- V8. -/
theorem test_transmit : (next? (exec (.transmit 0x800000#24) (armed 0#24))).map
    (fun s => (s.c, s.spc, s.dly, s.sact, s.im, s.pin)) = some (0x800000#24, 0#5, 0, true, false, false) := by decide
/-- V7. -/
theorem test_transmit_refused : refusal? (exec (.transmit 0xFFFFFF#24) State.reset) = some .pinNotConfigured := by
  decide

/-! ## Sequencer operations -/

/-- V20. -/
theorem test_nop : (next? (exec .nop { State.reset with spc := 5#5 })).map (fun s => (s.spc, s.trace)) =
    some (6#5, [.slot]) := by decide
/-- V21 and V22, `U = 1`: the first and the fourteenth step of UDELAY 14. -/
theorem test_udelay_14 :
    (fun s : State => (s.spc, s.dly, s.trace)) (delayStep (slotCount 1 14#8) { State.reset with spc := 5#5 }) =
      (5#5, 13, [.slot]) ∧
    (fun s : State => (s.spc, s.dly, s.trace)) (delayStep (slotCount 1 14#8) { State.reset with spc := 5#5, dly := 1 }) =
      (6#5, 0, [.slot]) := by decide
/-- V23's first step, `U = 3`, and V25. -/
theorem test_udelay_7_0 :
    (fun s : State => (s.spc, s.dly)) (delayStep (slotCount 3 7#8) { State.reset with spc := 10#5 }) = (10#5, 20) ∧
    (fun s : State => (s.spc, s.dly, s.trace)) (delayStep (slotCount 1 0#8) { State.reset with spc := 10#5 }) =
      (11#5, 0, []) := by decide
/-- V29. -/
theorem test_pinHi : (next? (exec .pinHi { State.reset with spc := 4#5, pin := true })).map
    (fun s => (s.spc, s.pin, s.trace)) = some (5#5, true, [.pin true]) := by decide
/-- V30. -/
theorem test_pinLo : (next? (exec .pinLo { State.reset with spc := 6#5, pin := true })).map
    (fun s => (s.spc, s.pin, s.trace)) = some (7#5, false, [.pin false]) := by decide
/-- V31 and V32. -/
theorem test_irqSave :
    (next? (exec .irqSave { State.reset with imsave := true })).map (fun s => (s.spc, s.im, s.imsave)) =
      some (1#5, true, false) ∧
    (next? (exec .irqSave { State.reset with im := true })).map (fun s => (s.im, s.imsave)) = some (true, true) := by
  decide
/-- V33 and V34. -/
theorem test_irqRest :
    (next? (exec .irqRest { State.reset with spc := 15#5, im := true })).map (fun s => (s.spc, s.im, s.imsave)) =
      some (16#5, false, false) ∧
    (next? (exec .irqRest { State.reset with im := true, imsave := true })).map (fun s => (s.im, s.imsave)) =
      some (true, true) := by decide
/-- V36. -/
theorem test_ldMask : (next? (exec .ldMask { State.reset with spc := 1#5 })).map (fun s => (s.spc, s.m)) =
    some (2#5, 0x800000#24) := by decide
/-- V37 and V38. -/
theorem test_tst :
    (next? (exec .tst { State.reset with c := 0x00FF00#24, m := 0x008000#24 })).map (fun s => s.t) = some true ∧
    (next? (exec .tst { State.reset with c := 0x00FF00#24, m := 0x010000#24, t := true })).map (fun s => s.t) =
      some false := by decide
/-- V39 and V40. -/
theorem test_tst_ends :
    (next? (exec .tst { State.reset with c := 0x800000#24, m := 0x800000#24 })).map (fun s => s.t) = some true ∧
    (next? (exec .tst { State.reset with c := 0x000001#24, m := 0x000001#24 })).map (fun s => s.t) = some true := by
  decide
/-- V42 and V43. -/
theorem test_shr :
    (next? (exec .shr { State.reset with spc := 13#5, m := 0x800000#24, t := true })).map
      (fun s => (s.spc, s.m, s.t)) = some (14#5, 0x400000#24, true) ∧
    (next? (exec .shr { State.reset with m := 0x000001#24 })).map (fun s => s.m) = some 0x000000#24 := by decide
/-- V45. -/
theorem test_b : (next? (exec (.b 13#5) { State.reset with spc := 8#5 })).map (fun s => s.spc) = some 13#5 := by decide
/-- V46 and V47. -/
theorem test_bf :
    (next? (exec (.bf 9#5) { State.reset with spc := 3#5 })).map (fun s => s.spc) = some 9#5 ∧
    (next? (exec (.bf 9#5) { State.reset with spc := 3#5, t := true })).map (fun s => s.spc) = some 4#5 := by decide
/-- V48 and V49. -/
theorem test_bnz :
    (next? (exec (.bnz 2#5) { State.reset with spc := 14#5, m := 1#24 })).map (fun s => s.spc) = some 2#5 ∧
    (next? (exec (.bnz 2#5) { State.reset with spc := 14#5, t := true })).map (fun s => s.spc) = some 15#5 := by decide
/-- V49a. -/
theorem test_ret : (next? (exec .ret { sending 0xA5A5A5#24 0#24 16#5 with hact := true, imsave := true })).map
    (fun s => (s.sact, s.spc, s.hact, s.c, s.im, s.imsave)) = some (false, 0#5, false, 0xA5A5A5#24, true, true) := by
  decide

/-! ## The agents -/

/-- V61, V62, V64 and V66, configuration TC1. -/
theorem test_ticks :
    (fun s : State => (s.count, s.mcf, s.ovf)) (tick 8 2 (armed 0#24)) = (1, false, false) ∧
    (fun s : State => (s.count, s.mcf, s.ovf)) (tick 8 2 { armed 0#24 with count := 1 }) = (2, true, false) ∧
    (fun s : State => (s.count, s.mcf, s.ovf)) (tick 8 2 { armed 0#24 with count := 7 }) = (0, false, true) ∧
    (fun s : State => (s.count, s.mcf, s.ovf)) (tick 8 2 { armed 0#24 with count := 1, mcf := true }) =
      (2, true, false) := by decide
/-- R138, R139: with both flags set the idle colour goes first and the other flag stays. -/
theorem test_entry_both : (next? (step (waiting true true .processor []))).map
    (fun s => (s.hact, s.mcf, s.ovf, s.c, s.sact, s.im)) = some (true, false, true, 0x00FF00#24, true, false) := by decide
/-- R139: the rollover event transmits white. -/
theorem test_entry_rollover : (next? (step (waiting false true .processor []))).map
    (fun s => (s.hact, s.ovf, s.c)) = some (true, false, 0xFFFFFF#24) := by decide
/-- V9. -/
theorem test_illegal_command :
    refusal? (step (waiting false false .processor [0x04000000#32])) = some .illegalCommand ∧
    refusal? (step (waiting false false .processor [0x1C000000#32])) = some .illegalCommand := by decide
/-- V11: an interrupt is taken before the next command. -/
theorem test_interrupt_first : (next? (step (waiting true false .processor [0x02FFFFFF#32]))).map
    (fun s => (s.commands, s.idle)) = some ([0x02FFFFFF#32], 0x0000FF00#32) := by decide
/-- R29: the wire is driven only once the pin is an output. -/
theorem test_wire : wire State.reset = none ∧ wire (armed 0#24) = some false := by decide
/-- R53, X13: `0x00FF00` is red only. -/
theorem test_channels : (green 0x00FF00#24, red 0x00FF00#24, blue 0x00FF00#24) = (0x00#8, 0xFF#8, 0x00#8) := by decide
/-- V50, V51, V53 and V55: steps of a transmission at `U = 1` and `U = 3`. -/
theorem test_transmissionSteps :
    (transmissionSteps 1 0x000000#24, transmissionSteps 1 0xFFFFFF#24, transmissionSteps 3 0x800000#24,
      transmissionSteps 1 0xA5A5A5#24) = (700, 796, 1814, 748) := by decide
/-- X1: the first pulse of `0x800000` is the long one. -/
theorem test_first_pulse : (train 1 0x800000#24).take 3 = [.pin true, .slot, .slot] ∧
    ((train 1 0x800000#24).drop 14).take 2 = [.slot, .pin false] := by decide
/-- The cells stay canonical: writing the listing's word removes a cell. -/
theorem test_cells : writeCell [(0, 0x10000000#32)] 0 0x14000000#32 = [] ∧
    Memory.wf [(3, 0x10000000#32), (1, 0x10000000#32)] = false := by decide

/-! ## Witnesses: for every obligation with hypotheses, a state that meets them together -/

theorem safe_waiting (mcf ovf : Bool) (turns : List Turn) (commands : List Word) :
    SafeState { waiting mcf ovf .processor commands with turns := turns } where
  inactiveIndex _ := ⟨rfl, rfl⟩
  handlerActive h := by cases h
  armed _ := ⟨rfl, rfl, rfl⟩
  unarmed h := by cases h
  countBound := Nat.lt_of_lt_of_le Nat.zero_lt_two Config.two_le_periodTicks
  activePin h := by cases h
  maskOneHot h := by cases h
  masked h := by cases h
  idlePin _ := rfl
  idleTop := (by decide : (0x0000FF00#32).extractLsb' 24 8 = 0#8)
  romIsListing := rfl
  indexBound := Nat.zero_le _
  pinMatchesIndex h := by cases h
  delayMatchesIndex h := absurd rfl h

theorem safe_sending {color mask : Color} {index : Index} (one : OneHot mask) (low : index.toNat ≤ 16) :
    SafeState { sending color mask index with pin := pinAtIndex index.toNat } where
  inactiveIndex h := by cases h
  handlerActive h := by cases h
  armed _ := ⟨rfl, rfl, rfl⟩
  unarmed h := by cases h
  countBound := Nat.lt_of_lt_of_le Nat.zero_lt_two Config.two_le_periodTicks
  activePin _ := rfl
  maskOneHot _ _ _ := .inl one
  masked _ _ _ := rfl
  idlePin h := by cases h
  idleTop := (by decide : (0#32).extractLsb' 24 8 = 0#8)
  romIsListing := rfl
  indexBound := low
  pinMatchesIndex _ := rfl
  delayMatchesIndex h := absurd rfl h

/-- The processor side's turn, where the first turn listed says so. -/
theorem side {s : State} (h : currentTurn s = .processor) : ProcessorSide s := .inl h

theorem witness_DecodeOfEncode : (Instr.b 16#5).WellFormed ∧ (Instr.transmit 0xFFFFFF#24).WellFormed := by decide

theorem witness_EncodeOfDecode : decode 0x110000FF#32 = .ok (.udelay 255#8) := by rfl

theorem witness_WordIsItsRowsOperation :
    (⟨"B", 0x19000000#32, 0xFFFFFFE0#32⟩ : OpRow) ∈ opcodeMap ∧ 0x19000010#32 &&& 0xFFFFFFE0#32 = 0x19000000#32 ∧
    decode 0x19000010#32 = .ok (.b 16#5) ∧ 0x19000011#32 &&& 0xFFFFFFE0#32 = 0x19000000#32 := ⟨by decide, by decide, rfl, by decide⟩

theorem witness_CommandPortDecoding :
    (0x01FFFFFF#32).extractLsb' 24 8 = 0x01#8 ∧ (0x02FFFFFF#32).extractLsb' 24 8 = 0x02#8 ∧
    (0x03FFFFFF#32).extractLsb' 24 8 = 0x03#8 := by decide

theorem witness_CommandPortDecoding_illegal : ∃ s : State, ProcessorSide s ∧ hostEnabled s = true ∧
    s.commands = 0x04000000#32 :: [] ∧ (0x04000000#32).extractLsb' 24 8 ≠ 0x01#8 ∧
    (0x04000000#32).extractLsb' 24 8 ≠ 0x02#8 ∧ (0x04000000#32).extractLsb' 24 8 ≠ 0x03#8 :=
  ⟨waiting false false .processor [0x04000000#32], side rfl, by decide, rfl, by decide, by decide, by decide⟩

theorem witness_CommandPortDecoding_rom : ∃ s : State, ProcessorSide s ∧ s.sact = true ∧
    romRead s s.spc.toNat = some 0x1D000000#32 ∧ ∀ i, decode 0x1D000000#32 ≠ .ok i :=
  ⟨{ sending 0#24 1#24 16#5 with rom := [(16, 0x1D000000#32)] }, side rfl, rfl, by decide, fun _ h => by cases h⟩

theorem witness_ReservedOpcodesAreRefused :
    ((0x00000000#32).extractLsb' 24 8).toNat = 0 ∧
    (0x04 ≤ ((0x04000000#32).extractLsb' 24 8).toNat ∧ ((0x04000000#32).extractLsb' 24 8).toNat ≤ 0x0F) ∧
    (0x04 ≤ ((0x0FFFFFFF#32).extractLsb' 24 8).toNat ∧ ((0x0FFFFFFF#32).extractLsb' 24 8).toNat ≤ 0x0F) ∧
    0x1D ≤ ((0x1D000000#32).extractLsb' 24 8).toNat ∧ 0x1D ≤ ((0xFFFFFFFF#32).extractLsb' 24 8).toNat := by decide

theorem witness_ReservedOpcodesAreRefused_port : ∃ s : State, ProcessorSide s ∧ hostEnabled s = true ∧
    s.commands = 0x1C000000#32 :: [] ∧ 0x04 ≤ ((0x1C000000#32).extractLsb' 24 8).toNat :=
  ⟨waiting false false .processor [0x1C000000#32], side rfl, by decide, rfl, by decide⟩

/-- The sequencer standing at a placed word. -/
def standingAt (w : Word) : State := { sending 0#24 1#24 0#5 with rom := [(0, w)] }

theorem witness_ReservedOperandBitsAreRefused :
    (ProcessorSide (standingAt 0x12000001#32) ∧ (standingAt 0x12000001#32).sact = true ∧
      romRead (standingAt 0x12000001#32) 0 = some 0x12000001#32 ∧
      (0x12000001#32).extractLsb' 24 8 ∈ [0x10#8, 0x12#8] ∧ (0x12000001#32).extractLsb' 0 24 ≠ 0#24) ∧
    (romRead (standingAt 0x11000100#32) 0 = some 0x11000100#32 ∧ (0x11000100#32).extractLsb' 24 8 = 0x11#8 ∧
      (0x11000100#32).extractLsb' 8 16 ≠ 0#16) ∧
    (romRead (standingAt 0x19000020#32) 0 = some 0x19000020#32 ∧ (0x19000020#32).extractLsb' 24 8 = 0x19#8 ∧
      (0x19000020#32).extractLsb' 5 19 ≠ 0#19) ∧
    (romRead (standingAt 0x1B000011#32) 0 = some 0x1B000011#32 ∧ (0x1B000011#32).extractLsb' 24 8 = 0x1B#8 ∧
      17 ≤ ((0x1B000011#32).extractLsb' 0 5).toNat) :=
  ⟨⟨side rfl, rfl, by decide⟩, by decide, by decide, by decide⟩

theorem witness_ReservedOperandBitsAreRefused_commands : (0x03#8 : BitVec 8) ∈ [0x01#8, 0x02#8, 0x03#8] := by decide

theorem witness_StepRunsFetchedOperation : ∃ s : State, ProcessorSide s ∧ s.sact = true ∧
    romRead s s.spc.toNat = some 0x1C000000#32 ∧ decodeRom 0x1C000000#32 = .ok .ret :=
  ⟨sending 0#24 1#24 16#5, side rfl, rfl, by decide, rfl⟩

theorem witness_StepRunsFetchedOperation_turns :
    (waiting false false .counter []).turns = .counter :: [] ∧ State.reset.turns = [] := ⟨rfl, rfl⟩

theorem witness_StepRunsHostCommand : ∃ s : State, ProcessorSide s ∧ hostEnabled s = true ∧
    s.commands = 0x03A5A5A5#32 :: [] ∧ decodeCommand 0x03A5A5A5#32 = .ok (.transmit 0xA5A5A5#24) :=
  ⟨waiting false false .processor [0x03A5A5A5#32], side rfl, by decide, rfl, rfl⟩

theorem witness_HostWaitsUntilReady :
    (∃ t, step (sending 0#24 1#24 0#5) = .next t ∧ (sending 0#24 1#24 0#5).sact = true) ∧
    (∃ t, step { armed 0#24 with hact := true, turns := [.processor] } = .next t) ∧
    (∃ t, step (waiting true false .processor [0x01000000#32]) = .next t ∧
      takeable (waiting true false .processor [0x01000000#32]) = true) :=
  ⟨⟨_, rfl, rfl⟩, ⟨_, rfl⟩, ⟨_, rfl, by decide⟩⟩

theorem witness_OneProcessorAgentIsEnabled :
    ((sending 0#24 1#24 0#5).hact = true → (sending 0#24 1#24 0#5).sact = true) := fun _ => rfl

theorem witness_PlacedWordRunsNext : (Instr.setIdle 5#24).WellFormed ∧ (Instr.setIdle 5#24).isCommand = true ∧
    (Instr.bnz 16#5).WellFormed ∧ (Instr.bnz 16#5).isCommand = false ∧ Memory.wf State.reset.rom = true ∧
    Memory.wf [(0, 0x10000000#32), (16, 0x10000000#32)] = true := by decide

theorem witness_StartArmsTheBlock : State.reset.run = false ∧ (armed 0#24).run = true := by decide

theorem witness_SetIdleReplacesTheIdleColour :
    (waiting true false .processor []).idle = (0x00FF00#24 : Color).zeroExtend 32 ∧
    (waiting true false .processor []).mcf = true := by decide

theorem witness_TransmitStartsTheSequencer : (armed 0#24).pinoe = true ∧ State.reset.pinoe = false := by decide

theorem slots_pos : 0 < (14#8 : Units).toNat * Config.unitNops :=
  Nat.mul_pos (by decide) Config.unitNops_pos

theorem slots_gt_one : 1 < (14#8 : Units).toNat * Config.unitNops := by
  have h := Config.unitNops_pos
  change 1 < 14 * Config.unitNops
  omega

/-- A step of UDELAY that asks for no slot, its last step, and an earlier one. -/
theorem witness_UdelayStepSpendsOneSlot :
    (0#8 : Units).toNat * Config.unitNops = 0 ∧ (14#8 : Units).toNat * Config.unitNops ≠ 0 ∧
    (1 = if ({ State.reset with dly := 1 } : State).dly = 0 then (14#8 : Units).toNat * Config.unitNops else 1) ∧
    (if State.reset.dly = 0 then (14#8 : Units).toNat * Config.unitNops else State.reset.dly) ≠ 1 :=
  ⟨Nat.zero_mul _, Nat.pos_iff_ne_zero.1 slots_pos, rfl, Nat.ne_of_gt slots_gt_one⟩

theorem witness_UdelaySpendsExactlyItsSlots : State.reset.dly = 0 ∧ 0 < (14#8 : Units).toNat ∧
    1 < (14#8 : Units).toNat * Config.unitNops := ⟨rfl, by decide, slots_gt_one⟩

theorem witness_UdelayEqualsItsNops : State.reset.dly = 0 ∧ 0 < (255#8 : Units).toNat := by decide

/-- PINHI at index 4, PINLO at index 11, TST at index 2. -/
theorem witness_ProgramMeetsNoCornerCase :
    (∃ s : State, SafeState s ∧ s.sact = true ∧ romRead s s.spc.toNat = some (encode .pinHi)) ∧
    (∃ s : State, SafeState s ∧ s.sact = true ∧ romRead s s.spc.toNat = some (encode .pinLo)) ∧
    (∃ s : State, SafeState s ∧ s.sact = true ∧ romRead s s.spc.toNat = some (encode .tst)) :=
  ⟨⟨_, safe_sending (color := 0#24) (index := 4#5) ⟨0, by decide, rfl⟩ (by decide), rfl, by decide⟩,
   ⟨_, safe_sending (color := 0#24) (index := 11#5) ⟨0, by decide, rfl⟩ (by decide), rfl, by decide⟩,
   ⟨_, safe_sending (color := 0#24) (index := 2#5) ⟨23, by decide, rfl⟩ (by decide), rfl, by decide⟩⟩

theorem witness_MaskBracketSavesAndRestores : ∃ t u v : State, exec .irqSave State.reset = .next t ∧
    u.imsave = t.imsave ∧ exec .irqRest u = .next v := ⟨_, _, _, rfl, rfl, rfl⟩

theorem witness_MaskIsLoadedAndShifted : ({ State.reset with m := 1#24 } : State).m = 1#24 ∧ State.reset.m = 0#24 := by
  decide

theorem witness_TestReadsTheMaskedBit : (∃ s : State, s.m = 1#24 <<< 23) ∧ (∃ s : State, s.m = 1#24 <<< 0) ∧
    State.reset.m = 0#24 :=
  ⟨⟨{ State.reset with m := 0x800000#24 }, by decide⟩, ⟨{ State.reset with m := 1#24 }, by decide⟩, rfl⟩

theorem witness_BranchesSetTheIndex : State.reset.t = false ∧ ({ State.reset with t := true } : State).t = true ∧
    ({ State.reset with m := 1#24 } : State).m ≠ 0#24 ∧ State.reset.m = 0#24 := by decide

theorem witness_SequencerIgnoresTheScheduler : Instr.ret.isCommand = false ∧ (Instr.udelay 7#8).isCommand = false := by
  decide

/-- Bit 23 of white and bit 0 of black. -/
theorem witness_OneBitMakesOnePulse :
    (∃ (s : State) (turns rest : List Turn), s.rom = [] ∧ s.sact = true ∧ s.spc = 2#5 ∧ s.dly = 0 ∧ s.pin = false ∧
      s.m = 1#24 <<< 23 ∧ s.turns = turns ++ rest ∧ .reset ∉ turns ∧ s.c.getLsbD 23 = true ∧
      processorTurns s.run turns = 7 + 26 * Config.unitNops) ∧
    (∃ (s : State) (turns rest : List Turn), s.rom = [] ∧ s.sact = true ∧ s.spc = 2#5 ∧ s.dly = 0 ∧ s.pin = false ∧
      s.m = 1#24 <<< 0 ∧ s.turns = turns ++ rest ∧ .reset ∉ turns ∧ s.c.getLsbD 0 = false ∧
      processorTurns s.run turns = 6 + 23 * Config.unitNops) :=
  ⟨⟨{ sending 0xFFFFFF#24 (1#24 <<< 23) 2#5 with turns := List.replicate (7 + 26 * Config.unitNops) .processor ++ [] },
    _, _, rfl, rfl, rfl, rfl, rfl, rfl, rfl, reset_notMem_replicate _, by decide, processorTurns_replicate _ _⟩,
   ⟨{ sending 0#24 (1#24 <<< 0) 2#5 with turns := List.replicate (6 + 23 * Config.unitNops) .processor ++ [] },
    _, _, rfl, rfl, rfl, rfl, rfl, rfl, rfl, reset_notMem_replicate _, by decide, processorTurns_replicate _ _⟩⟩

/-- The state after `StartTx` with exactly the turns of the transmission listed. -/
def started (color : Color) (n : Nat) : State :=
  { armed 0#24 with c := color, sact := true, turns := List.replicate n .processor ++ [] }

theorem witness_TransmissionEmitsItsTrain : ∃ (s : State) (turns rest : List Turn),
    s.rom = [] ∧ s.sact = true ∧ s.spc = 0#5 ∧ s.dly = 0 ∧ s.pin = false ∧ s.turns = turns ++ rest ∧ .reset ∉ turns ∧
    processorTurns s.run turns = transmissionSteps Config.unitNops s.c :=
  ⟨started 0xA5A5A5#24 (transmissionSteps Config.unitNops 0xA5A5A5#24), _, _, rfl, rfl, rfl, rfl, rfl, rfl,
    reset_notMem_replicate _, processorTurns_replicate _ _⟩

/-- A counter's turn among them is no step of the transmission. -/
theorem processorTurns_counter (n : Nat) :
    processorTurns true (.counter :: List.replicate n .processor) = n := by
  simp [processorTurns]

theorem witness_TransmissionEmitsItsTrain_ticks : ∃ (s : State) (turns rest : List Turn),
    s.turns = turns ++ rest ∧ Turn.counter ∈ turns ∧
    processorTurns s.run turns = transmissionSteps Config.unitNops s.c :=
  ⟨{ started 0#24 0 with
      turns := (.counter :: List.replicate (transmissionSteps Config.unitNops 0#24) .processor) ++ [] },
    .counter :: List.replicate (transmissionSteps Config.unitNops 0#24) .processor, [],
    rfl, List.mem_cons_self, processorTurns_counter _⟩

theorem witness_TransmissionTakesExactlyItsSteps :
    (∃ (s : State) (turns rest : List Turn), s.rom = [] ∧ s.sact = true ∧ s.spc = 0#5 ∧ s.dly = 0 ∧
      s.turns = turns ++ rest ∧ .reset ∉ turns ∧
      processorTurns s.run turns < transmissionSteps Config.unitNops s.c) ∧
    (∃ (s : State) (turns rest : List Turn), s.rom = [] ∧ s.sact = true ∧ s.spc = 0#5 ∧ s.dly = 0 ∧
      s.turns = turns ++ rest ∧ .reset ∉ turns ∧
      processorTurns s.run turns = transmissionSteps Config.unitNops s.c) :=
  ⟨⟨started 0#24 0, _, _, rfl, rfl, rfl, rfl, rfl, reset_notMem_replicate _, by
      rw [processorTurns_replicate]; unfold transmissionSteps; omega⟩,
   ⟨started 0#24 (transmissionSteps Config.unitNops 0#24), _, _, rfl, rfl, rfl, rfl, rfl, reset_notMem_replicate _,
    processorTurns_replicate _ _⟩⟩

theorem witness_TransmissionsOfOneColourAreIdentical : ∃ (s s' : State) (turns rest : List Turn),
    s.rom = [] ∧ s.sact = true ∧ s.spc = 0#5 ∧ s.dly = 0 ∧ s.pin = false ∧
    s'.rom = [] ∧ s'.sact = true ∧ s'.spc = 0#5 ∧ s'.dly = 0 ∧ s'.pin = false ∧ s.c = s'.c ∧ s.m ≠ s'.m ∧
    s.turns = turns ++ rest ∧ s'.turns = turns ++ rest ∧ .reset ∉ turns ∧
    processorTurns s.run turns = transmissionSteps Config.unitNops s.c ∧
    processorTurns s'.run turns = transmissionSteps Config.unitNops s'.c :=
  ⟨started 5#24 (transmissionSteps Config.unitNops 5#24),
    { started 5#24 (transmissionSteps Config.unitNops 5#24) with m := 9#24 }, _, _,
    rfl, rfl, rfl, rfl, rfl, rfl, rfl, rfl, rfl, rfl, rfl, by decide, rfl, rfl, reset_notMem_replicate _,
    processorTurns_replicate _ _, processorTurns_replicate _ _⟩

theorem witness_EntryServicesOneFlag :
    (∃ s : State, ProcessorSide s ∧ takeable s = true ∧ s.mcf = true) ∧
    (∃ s : State, ProcessorSide s ∧ takeable s = true ∧ s.mcf = false) ∧
    State.reset.mcf = false ∧ State.reset.ovf = false :=
  ⟨⟨waiting true true .processor [], side rfl, by decide, rfl⟩,
   ⟨waiting false true .processor [], side rfl, by decide, rfl⟩, rfl, rfl⟩

/-- The rollover, the short event, and a tick that is neither. -/
theorem witness_TickCountsAndRaises :
    (∃ s : State, currentTurn s = .counter ∧ s.run = true ∧ s.count = Config.periodTicks - 1) ∧
    (∃ s : State, currentTurn s = .counter ∧ s.run = true ∧ s.count ≠ Config.periodTicks - 1 ∧
      s.count + 1 = Config.shortTicks) ∧
    (∃ s : State, currentTurn s = .counter ∧ s.run = true ∧ s.count ≠ Config.periodTicks - 1 ∧
      s.count + 1 ≠ Config.shortTicks) ∧
    (∃ s t : State, currentTurn s = .counter ∧ s.run = false ∧ step s = .next t) := by
  have hs := Config.shortTicks_pos
  have hp := Config.shortTicks_lt_periodTicks
  refine ⟨⟨{ waiting false false .counter [] with count := Config.periodTicks - 1 }, rfl, rfl, rfl⟩,
    ⟨{ waiting false false .counter [] with count := Config.shortTicks - 1 }, rfl, rfl, ?_, ?_⟩,
    ⟨{ waiting false false .counter [] with count := Config.periodTicks }, rfl, rfl, ?_, ?_⟩,
    ⟨{ State.reset with turns := [.counter] }, _, rfl, rfl, rfl⟩⟩
  · change Config.shortTicks - 1 ≠ _; omega
  · change Config.shortTicks - 1 + 1 = _; omega
  · change Config.periodTicks ≠ _; omega
  · change Config.periodTicks + 1 ≠ _; omega

theorem witness_CycleLawOfTicks : (armed 0#24).count = 0 := rfl

theorem idle_waiting : 0x0000FF00#32 = (armed 0x00FF00#24).idle := by decide

/-- The turns of `OnePeriodFlashesIdleThenWhite` for an idle word. -/
def periodTurns (idle : Word) (rest : List Turn) : List Turn :=
  List.replicate Config.shortTicks .counter ++
    List.replicate (1 + transmissionSteps Config.unitNops (idle.extractLsb' 0 24)) .processor ++
    List.replicate (Config.periodTicks - Config.shortTicks) .counter ++
    List.replicate (1 + transmissionSteps Config.unitNops Config.white) .processor ++ rest

theorem witness_OnePeriodFlashesIdleThenWhite : ∃ (s : State) (rest : List Turn),
    SafeState s ∧ s.run = true ∧ quiescent s = true ∧ s.im = false ∧ s.count = 0 ∧ s.commands = [] ∧
    s.turns = periodTurns s.idle rest :=
  ⟨{ waiting false false .processor [] with turns := periodTurns 0x0000FF00#32 [] },
    [], safe_waiting _ _ _ _, rfl, rfl, rfl, rfl, rfl, congrArg (fun idle => periodTurns idle []) idle_waiting⟩

/-- The turns of `BothFlagsAreServedShortFirst` for an idle word. -/
def bothTurns (idle : Word) (rest : List Turn) : List Turn :=
  List.replicate (1 + transmissionSteps Config.unitNops (idle.extractLsb' 0 24)) .processor ++
    List.replicate (1 + transmissionSteps Config.unitNops Config.white) .processor ++ rest

theorem witness_BothFlagsAreServedShortFirst : ∃ (s : State) (rest : List Turn),
    SafeState s ∧ takeable s = true ∧ s.mcf = true ∧ s.ovf = true ∧ s.turns = bothTurns s.idle rest :=
  ⟨{ waiting true true .processor [] with turns := bothTurns 0x0000FF00#32 [] },
    [], safe_waiting _ _ _ _, rfl, rfl, rfl, congrArg (fun idle => bothTurns idle []) idle_waiting⟩

theorem witness_TransmissionIsNeverInterrupted : ∃ s t : State, s.sact = true ∧ currentTurn s ≠ .reset ∧
    step s = .next t ∧ s.mcf = true ∧ s.ovf = true :=
  ⟨{ sending 0#24 1#24 0#5 with mcf := true, ovf := true }, _, rfl, by decide, rfl, rfl, rfl⟩

/-- A flag goes by its service, and by START. -/
theorem witness_FlagsAreClearedOnlyByServiceOrStart :
    (∃ s t : State, currentTurn s ≠ .reset ∧ step s = .next t ∧ s.mcf = true ∧ t.mcf = false) ∧
    (∃ s t : State, currentTurn s ≠ .reset ∧ step s = .next t ∧ s.ovf = true ∧ t.ovf = false) ∧
    (∃ s t : State, currentTurn s ≠ .reset ∧ step s = .next t ∧ s.mcf = true ∧ t.mcf = false ∧ s.run = false) :=
  ⟨⟨waiting true true .processor [], _, by decide, rfl, rfl, rfl⟩,
   ⟨waiting false true .processor [], _, by decide, rfl, rfl, rfl⟩,
   ⟨{ State.reset with mcf := true, turns := [.processor], commands := [0x01000000#32] }, _, by decide, rfl, rfl, rfl,
    rfl⟩⟩

theorem witness_ArmedStateOutlastsEveryStep : ∃ s t : State, currentTurn s ≠ .reset ∧ step s = .next t ∧
    s.run = true ∧ s.mcen = true ∧ s.ovfen = true ∧ s.pinoe = true :=
  ⟨waiting true true .processor [], _, by decide, rfl, rfl, rfl, rfl, rfl⟩

/-- IRQSAVE at index 0 and IRQREST at index 15. -/
theorem witness_InterruptMaskIsWrittenOnlyByTheBracket :
    (∃ s t : State, currentTurn s ≠ .reset ∧ step s = .next t ∧ t.im ≠ s.im ∧ s.spc = 0#5) ∧
    (∃ s t : State, currentTurn s ≠ .reset ∧ step s = .next t ∧ t.im ≠ s.im ∧ s.spc = 15#5) :=
  ⟨⟨{ sending 0#24 1#24 0#5 with im := false }, _, by decide, rfl, by decide, rfl⟩,
   ⟨sending 0#24 1#24 15#5, _, by decide, rfl, by decide, rfl⟩⟩

theorem witness_IdleColourIsWrittenOnlyByCommands : ∃ s t : State, currentTurn s ≠ .reset ∧ step s = .next t ∧
    t.idle ≠ s.idle :=
  ⟨waiting false false .processor [0x02ABCDEF#32], _, by decide, rfl, by decide⟩

theorem witness_OnlyTheSequencerExtendsTheTrace :
    (∃ s t : State, currentTurn s ≠ .reset ∧ step s = .next t ∧ stepper s = some .sequencer ∧ t.trace ≠ s.trace) ∧
    (∃ s t : State, currentTurn s ≠ .reset ∧ step s = .next t ∧ stepper s = some .dispatcher) ∧
    (∃ s t : State, currentTurn s ≠ .reset ∧ step s = .next t ∧ s.sact = true ∧ stepper s = some .counter) :=
  ⟨⟨sending 0#24 1#24 4#5, _, by decide, rfl, rfl, by decide⟩,
   ⟨waiting false true .processor [], _, by decide, rfl, by decide⟩,
   ⟨{ sending 0#24 1#24 4#5 with turns := [.counter] }, _, by decide, rfl, rfl, rfl⟩⟩

/-- At reset the pin is no output, and the invariants hold. -/
theorem safe_undriven (turns : List Turn) (commands : List Word) :
    SafeState { State.reset with turns := turns, commands := commands } where
  inactiveIndex _ := ⟨rfl, rfl⟩
  handlerActive h := by cases h
  armed h := by cases h
  unarmed _ := ⟨rfl, rfl, rfl, rfl, rfl⟩
  countBound := Nat.lt_of_lt_of_le Nat.zero_lt_two Config.two_le_periodTicks
  activePin h := by cases h
  maskOneHot h := by cases h
  masked h := by cases h
  idlePin _ := rfl
  idleTop := show State.reset.idle.extractLsb' 24 8 = 0#8 by decide
  romIsListing := rfl
  indexBound := show State.reset.spc.toNat ≤ 16 by decide
  pinMatchesIndex h := by cases h
  delayMatchesIndex h := absurd rfl h

theorem witness_OnlyTheSequencerMovesADrivenWire :
    (∃ s t : State, SafeState s ∧ currentTurn s ≠ .reset ∧ step s = .next t ∧ wire s ≠ none ∧ wire t ≠ wire s) ∧
    (∃ s t : State, SafeState s ∧ currentTurn s ≠ .reset ∧ step s = .next t ∧ wire s = none ∧
      wire t = some false) :=
  ⟨⟨_, _, safe_sending (color := 0#24) (mask := 1#24) (index := 4#5) ⟨0, by decide, rfl⟩ (by decide), by decide, rfl,
    by decide, by decide⟩,
   ⟨_, _, safe_undriven [.processor] [0x01000000#32], by decide, rfl, by decide, by decide⟩⟩

theorem witness_NoStepWritesTheRom : ∃ s t : State, step s = .next t := ⟨sending 0#24 1#24 16#5, _, rfl⟩

/-- The refusals of a word that spells nothing and of a second START. -/
theorem witness_RefusalsAreHostCommands :
    (∃ s : State, SafeState s ∧ step s = .refused .illegalCommand) ∧
    (∃ s : State, SafeState s ∧ step s = .refused .startTwice) :=
  ⟨⟨_, safe_waiting false false [.processor] [0xFFFFFFFF#32], rfl⟩,
   ⟨_, safe_waiting false false [.processor] [0x01FFFFFF#32], rfl⟩⟩

theorem witness_SafeStatesNeverFault : ∃ s : State, SafeState s ∧ s.sact = true :=
  ⟨_, safe_sending (color := 0#24) (mask := 1#24) (index := 16#5) ⟨0, by decide, rfl⟩ (by decide), rfl⟩

theorem witness_StepKeepsTheInvariants : ∃ s t : State, SafeState s ∧ step s = .next t :=
  ⟨_, _, safe_sending (color := 0#24) (mask := 1#24) (index := 14#5) ⟨0, by decide, rfl⟩ (by decide), rfl⟩

theorem witness_CountersFitTheirWidths : ∃ s : State, SafeState s := ⟨_, safe_waiting false false [] []⟩

theorem witness_ResetMakesTheBlockInert : ∃ s : State, currentTurn s = .reset ∧ s.pinoe = true :=
  ⟨waiting true true .reset [], rfl, rfl⟩

theorem witness_NothingMovesBeforeStart : ∃ s : State, s.run = false ∧ s.sact = false ∧ s.hact = false ∧
    irq s = false ∧ s.commands = [] ∧ .reset ∉ s.turns :=
  ⟨{ State.reset with turns := [.counter, .processor] }, rfl, rfl, rfl, rfl, rfl, by decide⟩

/-- With a tick listed first and the rest of the turns free. -/
theorem witness_EveryTransmissionEnds : ∃ s : State, s.rom = [] ∧ s.sact = true ∧ s.spc = 0#5 ∧ s.dly = 0 ∧
    s.pin = false ∧ .reset ∉ s.turns :=
  ⟨{ started 0xA5A5A5#24 0 with turns := [.counter] }, rfl, rfl, rfl, rfl, rfl, by decide⟩

theorem witness_SequencerActivityEnds : ∃ s : State, SafeState s ∧ s.sact = true ∧ .reset ∉ s.turns :=
  ⟨_, safe_sending (color := 5#24) (mask := 1#24 <<< 23) (index := 10#5) ⟨23, by decide, rfl⟩ (by decide), rfl,
    by decide⟩

/-- The sequencer at a ROM that jumps to index 0 for ever, all turns free. -/
def looping : Nat → State
  | 0 => { State.reset with sact := true, rom := [(0, 0x19000000#32)] }
  | n + 1 => afterTurn (looping n)

theorem looping_fields (n : Nat) : (looping n).turns = [] ∧ (looping n).sact = true ∧ (looping n).run = false ∧
    (looping n).spc = 0#5 ∧ (looping n).rom = [(0, 0x19000000#32)] := by
  induction n with
  | zero => exact ⟨rfl, rfl, rfl, rfl, rfl⟩
  | succ n ih =>
    refine ⟨?_, by simp [looping, ih], by simp [looping, ih], by simp [looping, ih], by simp [looping, ih]⟩
    simp [looping, afterTurn, ih.1]

/-- Nothing comes from outside. -/
def noInput (_ : Nat) : Input := { words := [], reset := false }

theorem receive_noInput (n : Nat) (s : State) : receive (noInput n) s = s := by
  simp [receive, noInput]

/-- Words go behind the waiting ones, a reset before the listed turns; then the step is that reset. -/
theorem test_receive :
    let s := receive { words := [0x02000002#32], reset := true } (waiting true false .processor [0x02000001#32])
    s.commands = [0x02000001#32, 0x02000002#32] ∧ s.turns = [.reset, .processor] ∧
    (next? (step s)).map (fun t => (t.mcf, t.run, t.turns)) = some (false, false, [.processor]) := by decide

/-- An endless run in which SEQUENCER stays enabled. -/
theorem witness_SequencerIsWeaklyFair :
    EndlessRun noInput looping ∧ ∀ m, 0 ≤ m → enabled .sequencer (looping m) = true := by
  refine ⟨fun n => ?_, fun m _ => (looping_fields m).2.1⟩
  rw [receive_noInput]
  obtain ⟨turns, sact, run, spc, rom⟩ := looping_fields n
  have side : ProcessorSide (looping n) := by
    cases h : currentTurn (looping n) with
    | processor => exact .inl h
    | counter => exact .inr ⟨h, run⟩
    | reset => exact absurd h (currentTurn_ne_reset (by simp [turns]))
  have word : romRead (afterTurn (looping n)) (afterTurn (looping n)).spc.toNat = some 0x19000000#32 := by
    simp [romRead, readCell, spc, rom, Config.romLen]
  have decoded : decodeRom 0x19000000#32 = .ok (.b 0#5) := rfl
  have landed : ({ afterTurn (looping n) with spc := 0#5 } : State) = afterTurn (looping n) := by
    rw [← spc, ← afterTurn_spc]
  rw [step_sequencer side sact]
  simp only [sequencerStep, word, decoded]
  exact congrArg Host.Outcome.next landed

/-- The counter armed with both enables off and HOST silent, all turns free. -/
def ticking : Nat → State
  | 0 => { State.reset with run := true }
  | n + 1 => counterStep (afterTurn (ticking n))

theorem ticking_fields (n : Nat) : (ticking n).turns = [] ∧ (ticking n).sact = false ∧ (ticking n).hact = false ∧
    (ticking n).run = true ∧ (ticking n).mcen = false ∧ (ticking n).ovfen = false ∧ (ticking n).commands = [] := by
  induction n with
  | zero => exact ⟨rfl, rfl, rfl, rfl, rfl, rfl, rfl⟩
  | succ n ih =>
    refine ⟨?_, by simp [ticking, ih], by simp [ticking, ih], by simp [ticking, ih], by simp [ticking, ih],
      by simp [ticking, ih], by simp [ticking, ih]⟩
    simp [ticking, afterTurn, ih.1]

/-- An endless run in which COUNTER stays enabled. -/
theorem witness_CounterIsWeaklyFair :
    EndlessRun noInput ticking ∧ ∀ m, 0 ≤ m → enabled .counter (ticking m) = true := by
  refine ⟨fun n => ?_, fun m _ => (ticking_fields m).2.2.2.1⟩
  rw [receive_noInput]
  obtain ⟨turns, sact, hact, run, mcen, ovfen, commands⟩ := ticking_fields n
  have line : takeable (afterTurn (ticking n)) = false := by simp [takeable, irq, mcen, ovfen]
  cases h : currentTurn (ticking n) with
  | counter => exact step_counter h run
  | processor =>
    rw [step_processorSide (.inl h)]
    simp [processorStep, sequencerEnabled, hostEnabled, hostTurn, line, sact, hact, commands, run, ticking]
  | reset => exact absurd h (currentTurn_ne_reset (by simp [turns]))

theorem witness_OnlyAnEnabledAgentSteps : stepper (sending 0#24 1#24 0#5) = some .sequencer ∧
    stepper (waiting false false .counter []) = some .counter ∧
    stepper (waiting false false .processor []) = some .counter ∧
    stepper (waiting true false .processor []) = some .dispatcher ∧
    stepper (waiting false false .processor [0x02000000#32]) = some .host ∧
    stepper (waiting true true .reset []) = none := by decide

/-- No agent steps: HOST silent before START, and a stuck state. -/
theorem witness_OnlyAnEnabledAgentSteps_none :
    stepper { State.reset with turns := [.processor] } = none ∧
    hostEnabled { State.reset with turns := [.processor] } = true ∧
    stepper { State.reset with hact := true, turns := [.counter] } = none ∧
    hostEnabled { State.reset with hact := true, turns := [.counter] } = false := by decide

theorem witness_StartFromTheLaunchArmsTheBlock : ∃ (p : LaunchPremises) (s : State),
    Launch p s ∧ ProcessorSide s ∧ hostEnabled s = true ∧ s.commands = encode (.start 0x00FF00#24) :: [] :=
  ⟨⟨true, true, true, Config.clk⟩,
    { State.reset with turns := [.processor], commands := [0x0100FF00#32] },
    { toInvariants := (safe_undriven [.processor] [0x0100FF00#32]).toInvariants
      romIsListing := rfl
      traceEmpty := rfl
      premises := by simp [premisesMet]
      notStarted := rfl },
    side rfl, by decide, by decide⟩

/-- A run of one step after that START, no reset in it. -/
theorem witness_StartFromTheLaunchArmsTheBlock_later : ∃ u : State,
    .reset ∉ ({ armed 0x00FF00#24 with turns := [.processor] } : State).turns.take 1 ∧
    runSteps 1 { armed 0x00FF00#24 with turns := [.processor] } = .next u :=
  ⟨_, by decide, rfl⟩

/-- A SETIDLE word before every step, and a reset before every other one. -/
theorem witness_EndlessWordsAndResetsAreReceived : ∃ (input : Nat → Input) (s : State), SafeState s ∧
    (∀ w ∈ s.commands, ∃ color, w = encode (.setIdle color)) ∧
    (∀ n, ∀ w ∈ (input n).words, ∃ color, w = encode (.setIdle color)) ∧
    (input 1).reset = true ∧ (input 2).reset = false :=
  ⟨fun n => { words := [encode (.setIdle (BitVec.ofNat 24 n))], reset := decide (n % 2 = 1) }, _,
    safe_waiting true false [.counter] [0x02000001#32],
    fun w h => ⟨1#24, List.mem_singleton.1 h⟩, fun n w h => ⟨BitVec.ofNat 24 n, by simpa using h⟩, rfl, rfl⟩

theorem witness_HostMaySetIdleForEver : ∃ s : State, s.run = false ∧ s.sact = false ∧ s.hact = false ∧
    irq s = false ∧ s.commands = [] ∧ .reset ∉ s.turns :=
  ⟨State.reset, rfl, rfl, rfl, rfl, rfl, by decide⟩

end Sys2Proof.Tests
end

section
/-! SUPPORT. Who takes a step and what the step then is (spec/00_scope.md R7): the agent that `stepper` names, tied to
`step` once, for every state. -/

namespace Sys2Proof.Machine

/-! Taking a turn enables no agent and disables none. -/

@[simp] theorem takeable_afterTurn (s : State) : takeable (afterTurn s) = takeable s := by
  simp [takeable, irq]

@[simp] theorem sequencerEnabled_afterTurn (s : State) : sequencerEnabled (afterTurn s) = sequencerEnabled s :=
  afterTurn_sact s

@[simp] theorem counterEnabled_afterTurn (s : State) : counterEnabled (afterTurn s) = counterEnabled s :=
  afterTurn_run s

@[simp] theorem hostEnabled_afterTurn (s : State) : hostEnabled (afterTurn s) = hostEnabled s := by
  simp [hostEnabled]

@[simp] theorem enabled_afterTurn (agent : Agent) (s : State) : enabled agent (afterTurn s) = enabled agent s := by
  cases agent <;> simp [enabled]

@[simp] theorem processorStepper_afterTurn (s : State) : processorStepper (afterTurn s) = processorStepper s := by
  simp [processorStepper]

/-- A turn is a reset, a tick of the armed COUNTER, or the processor side's. -/
theorem turn_cases (s : State) :
    currentTurn s = .reset ∨ currentTurn s = .counter ∧ s.run = true ∨ ProcessorSide s := by
  cases turn : currentTurn s with
  | reset => exact .inl rfl
  | processor => exact .inr (.inr (.inl turn))
  | counter =>
    cases armed : s.run with
    | true => exact .inr (.inl ⟨rfl, rfl⟩)
    | false => exact .inr (.inr (.inr ⟨turn, armed⟩))

theorem step_reset {s : State} (turn : currentTurn s = .reset) : step s = .next (resetStep (afterTurn s)) := by
  change agentStep (currentTurn s) (afterTurn s) = _
  rw [turn]; rfl

theorem stepper_reset {s : State} (turn : currentTurn s = .reset) : stepper s = none := by
  simp only [stepper, turn]

theorem stepper_counter {s : State} (turn : currentTurn s = .counter) (armed : s.run = true) :
    stepper s = some .counter := by
  simp [stepper, turn, counterEnabled, armed]

theorem stepper_processorSide {s : State} (side : ProcessorSide s) : stepper s = processorStepper s := by
  rcases side with turn | ⟨turn, unarmed⟩
  · simp only [stepper, turn]
  · simp [stepper, turn, counterEnabled, unarmed]

theorem processorStepper_of_active {s : State} (active : s.sact = true) : processorStepper s = some .sequencer := by
  simp [processorStepper, sequencerEnabled, active]

/-- `out` is what R7 lets the named agent make of a state whose turn has been taken: the agent is enabled and `out` is
its own step. Where none is named, HOST issues nothing while COUNTER is not armed and the state stays (assumption 4),
or no agent is enabled and the block is stuck (assumption 9). -/
def IsStepOf (u : State) (out : Out) : Option Agent → Prop
  | some .sequencer => enabled .sequencer u = true ∧ out = sequencerStep u
  | some .dispatcher => enabled .dispatcher u = true ∧ out = .next (interruptEntry u)
  | some .host => enabled .host u = true ∧
      ∃ w rest, u.commands = w :: rest ∧ out = hostStep w { u with commands := rest }
  | some .counter => enabled .counter u = true ∧ out = .next (counterStep u)
  | none =>
      enabled .host u = true ∧ u.commands = [] ∧ u.run = false ∧ out = .next u ∨
      (∀ agent, enabled agent u = false) ∧ out = .fault .noAgentEnabled

/-- In its turn the processor side makes the step of the agent `processorStepper` names. -/
theorem processorStep_isStepOf (u : State) : IsStepOf u (processorStep u) (processorStepper u) := by
  rcases processorStep_cases u with ⟨active, e⟩ | ⟨take, e⟩ | ⟨w, rest, host, words, e⟩ |
    ⟨host, words, armed, e⟩ | ⟨host, words, unarmed, e⟩ | ⟨idle, handler, armed, e⟩ | ⟨idle, handler, unarmed, e⟩ <;>
    rw [e]
  · rw [processorStepper_of_active active]
    exact ⟨active, rfl⟩
  · obtain ⟨-, -, -, idle⟩ := (takeable_iff u).1 take
    have who : processorStepper u = some .dispatcher := by simp [processorStepper, sequencerEnabled, idle, take]
    rw [who]
    exact ⟨take, rfl⟩
  · obtain ⟨idle, -, noTake⟩ := (hostEnabled_iff u).1 host
    have who : processorStepper u = some .host := by
      simp [processorStepper, sequencerEnabled, idle, noTake, host, words]
    rw [who]
    exact ⟨host, w, rest, words, rfl⟩
  · obtain ⟨idle, -, noTake⟩ := (hostEnabled_iff u).1 host
    have who : processorStepper u = some .counter := by
      simp [processorStepper, sequencerEnabled, counterEnabled, idle, noTake, words, armed]
    rw [who]
    exact ⟨armed, rfl⟩
  · obtain ⟨idle, -, noTake⟩ := (hostEnabled_iff u).1 host
    have who : processorStepper u = none := by
      simp [processorStepper, sequencerEnabled, counterEnabled, idle, noTake, words, unarmed]
    rw [who]
    exact .inl ⟨host, words, unarmed, rfl⟩
  · have who : processorStepper u = some .counter := by
      simp [processorStepper, sequencerEnabled, takeable, hostEnabled, counterEnabled, idle, handler, armed]
    rw [who]
    exact ⟨armed, rfl⟩
  · have stuck : ∀ agent, enabled agent u = false := by
      intro agent
      cases agent <;>
        simp [enabled, sequencerEnabled, takeable, hostEnabled, counterEnabled, idle, handler, unarmed]
    have who : processorStepper u = none := by
      simp [processorStepper, sequencerEnabled, takeable, hostEnabled, counterEnabled, idle, handler, unarmed]
    rw [who]
    exact .inr ⟨stuck, rfl⟩

/-- A step that is no reset is the step of the agent `stepper` names, on the state whose turn has been taken. -/
theorem step_isStepOf {s : State} (turn : currentTurn s ≠ .reset) :
    IsStepOf (afterTurn s) (step s) (stepper s) := by
  rcases turn_cases s with reset | ⟨counter, armed⟩ | side
  · exact absurd reset turn
  · rw [step_counter counter armed, stepper_counter counter armed]
    exact ⟨by simpa [enabled, counterEnabled] using armed, rfl⟩
  · rw [step_processorSide side, stepper_processorSide side, ← processorStepper_afterTurn]
    exact processorStep_isStepOf (afterTurn s)

/-- Where `stepper` names an agent the step is that agent's: no reset is anyone's. -/
theorem step_of_stepper {s : State} {agent : Agent} (who : stepper s = some agent) :
    IsStepOf (afterTurn s) (step s) (some agent) := by
  have turn : currentTurn s ≠ .reset := by
    intro turn
    rw [stepper_reset turn] at who
    cases who
  rw [← who]
  exact step_isStepOf turn

/-- Settles O11, by the enabling table of R7: SACT parts SEQUENCER from the other two, and `takeable` parts those. -/
theorem oneProcessorAgentIsEnabled : Obligations.OneProcessorAgentIsEnabled := by
  intro s
  refine ⟨?_, ?_, ?_, fun handler => ?_⟩
  · rintro ⟨active, take⟩
    exact absurd (active.symm.trans ((takeable_iff s).1 take).2.2.2) (by decide)
  · rintro ⟨active, host⟩
    exact absurd (active.symm.trans ((hostEnabled_iff s).1 host).1) (by decide)
  · rintro ⟨take, host⟩
    exact absurd (take.symm.trans ((hostEnabled_iff s).1 host).2.2) (by decide)
  · cases active : s.sact with
    | true => exact .inl active
    | false =>
      cases take : takeable s with
      | true => exact .inr (.inl rfl)
      | false =>
        have thread : s.hact = false := by simpa [active] using handler
        exact .inr (.inr ((hostEnabled_iff s).2 ⟨active, thread, take⟩))

/-- Settles O54: `step_isStepOf` read once for each agent, and the reset for the turn that is none's. -/
theorem onlyAnEnabledAgentSteps : Obligations.OnlyAnEnabledAgentSteps := by
  intro s
  by_cases turn : currentTurn s = .reset
  · simp [stepper_reset turn, turn, step_reset turn]
  · have h := step_isStepOf turn
    refine ⟨fun who => ?_, fun who => ?_, fun who => ?_, fun who => ?_, fun who => .inr ?_⟩ <;>
      rw [who] at h <;> simpa [IsStepOf] using h

end Sys2Proof.Machine
end

section
/-! SUPPORT. What a step does to the trace and the pin (spec/00_scope.md R13; spec/41_sequencer.md R101). -/

namespace Sys2Proof.Machine

/-- A SEQUENCER step appends at most one event. -/
theorem sequencerStep_trace {s t : State} (h : sequencerStep s = .next t) :
    t.trace = s.trace ∨ ∃ e, t.trace = s.trace ++ [e] := by
  rcases sequencerStep_cases s with ⟨-, e⟩ | ⟨w, i, -, decoded, e⟩ | ⟨_, _, -, -, e⟩ <;> rw [e] at h
  · cases h
  · obtain ⟨t', e', frame⟩ := exec_sequencer_frame s (onlyClass_ok_iff.1 decoded).2
    rw [e'] at h; cases h
    simp only [frame]
  · cases h

/-- A command leaves the trace, and the pin too unless it is the START that arms the block and drives it low. -/
theorem exec_command_trace_pin {i : Instr} {s t : State} (command : i.isCommand = true) (h : exec i s = .next t) :
    t.trace = s.trace ∧ (t.pin = s.pin ∨ t.pin = false ∧ s.run = false ∧ t.run = true) := by
  cases i <;> simp [Instr.isCommand] at command
  case start color =>
    cases armed : s.run <;> simp only [exec, execStart, armed, if_true, Bool.false_eq_true, if_false] at h <;> cases h
    exact ⟨rfl, .inr ⟨rfl, rfl, rfl⟩⟩
  case setIdle color =>
    cases h
    exact ⟨rfl, .inl rfl⟩
  case transmit color =>
    cases output : s.pinoe <;>
      simp only [exec, execTransmit, output, if_true, Bool.false_eq_true, if_false] at h <;> cases h
    exact ⟨rfl, .inl rfl⟩

/-- A HOST step leaves what the command it runs leaves. -/
theorem hostStep_trace_pin {w : Word} {s t : State} (h : hostStep w s = .next t) :
    t.trace = s.trace ∧ (t.pin = s.pin ∨ t.pin = false ∧ s.run = false ∧ t.run = true) := by
  rcases hostStep_cases w s with ⟨i, decoded, e⟩ | ⟨_, -, e⟩ <;> rw [e] at h
  · exact exec_command_trace_pin (onlyClass_ok_iff.1 decoded).2 h
  · cases h

/-- Settles O43, agent by agent: SEQUENCER's step appends at most one event, HOST's is a command, and the others touch
neither the trace nor the pin. -/
theorem onlyTheSequencerExtendsTheTrace : Obligations.OnlyTheSequencerExtendsTheTrace := by
  intro s t turn h
  have agentStep := step_isStepOf turn
  rw [h] at agentStep
  cases who : stepper s with
  | none =>
    rw [who] at agentStep
    rcases agentStep with ⟨-, -, -, e⟩ | ⟨-, e⟩ <;> cases e
    simp
  | some agent =>
    rw [who] at agentStep
    cases agent with
    | sequencer =>
      obtain ⟨-, e⟩ := agentStep
      exact ⟨by simpa using sequencerStep_trace e.symm, fun other => absurd rfl other⟩
    | host =>
      obtain ⟨-, w, rest, -, e⟩ := agentStep
      obtain ⟨trace, pin⟩ := hostStep_trace_pin e.symm
      exact ⟨.inl (by simpa using trace), fun _ => by simpa using pin⟩
    | dispatcher =>
      obtain ⟨-, e⟩ := agentStep
      cases e; simp
    | counter =>
      obtain ⟨-, e⟩ := agentStep
      cases e; simp

end Sys2Proof.Machine
end

section
/-! SUPPORT. The turns of an endless run (spec/00_scope.md R7; assumptions 5, 19): while no reset comes from outside,
the listed turns run out and the bursts of free turns then alternate for ever. -/

namespace Sys2Proof.Machine

section
variable {input : Nat → Input} {run : Nat → State} (endless : EndlessRun input run)
include endless

/-- The listed turns run out. -/
theorem EndlessRun.exists_turns_nil {n : Nat} (quiet : ∀ m, n ≤ m → (input m).reset = false) :
    ∃ m, n ≤ m ∧ (run m).turns = [] := by
  induction listed : (run n).turns generalizing n with
  | nil => exact ⟨n, le_rfl, listed⟩
  | cons turn rest ih =>
    have next : (run (n + 1)).turns = rest := by
      rw [(step_receive_turns (quiet n le_rfl) (endless n)).1, (turn_cons listed).2]
    obtain ⟨m, le, none⟩ := ih (fun m le => quiet m (by omega)) next
    exact ⟨m, by omega, none⟩

/-- A free turn moves the place among the free turns, and lists none. -/
theorem EndlessRun.free_succ {n : Nat} (quiet : (input n).reset = false) (free : (run n).turns = []) :
    (run (n + 1)).turns = [] ∧
    (run (n + 1)).draws = (afterFreeTurn (run n)).draws ∧ (run (n + 1)).spent = (afterFreeTurn (run n)).spent := by
  have later : afterTurn (run n) = afterFreeTurn (run n) := by simp only [afterTurn, free]
  have h := step_receive_turns quiet (endless n)
  rw [later, afterFreeTurn_turns, free] at h
  exact h

/-- Every burst of free turns ends, and the next one begins: by induction on the turns the burst has left. -/
theorem EndlessRun.exists_next_burst {n : Nat} (quiet : ∀ m, n ≤ m → (input m).reset = false)
    (free : (run n).turns = []) :
    ∃ m, n ≤ m ∧ (run m).turns = [] ∧ (run m).draws = (run n).draws + 1 := by
  induction left : Config.freeBurst (run n).draws - (run n).spent generalizing n with
  | zero =>
    have ended : ¬(run n).spent < Config.freeBurst (run n).draws := by omega
    obtain ⟨turns, draws, -⟩ := endless.free_succ (quiet n le_rfl) free
    exact ⟨n + 1, by omega, turns, by rw [draws, afterFreeTurn, if_neg ended]⟩
  | succ k ih =>
    have more : (run n).spent < Config.freeBurst (run n).draws := by omega
    obtain ⟨turns, draws, spent⟩ := endless.free_succ (quiet n le_rfl) free
    rw [afterFreeTurn, if_pos more] at draws spent
    obtain ⟨m, le, turns', draws'⟩ :=
      ih (fun m le => quiet m (by omega)) turns (by rw [draws, spent]; dsimp only; omega)
    exact ⟨m, by omega, turns', by rw [draws', draws]⟩

/-- Free turns of either kind of burst come, COUNTER's (`owner = true`) and the processor side's. -/
theorem EndlessRun.exists_burst {n : Nat} (quiet : ∀ m, n ≤ m → (input m).reset = false) (owner : Bool) :
    ∃ m, n ≤ m ∧ (run m).turns = [] ∧ counterBurst (run m).draws = owner := by
  obtain ⟨m, le, free⟩ := endless.exists_turns_nil quiet
  by_cases burst : counterBurst (run m).draws = owner
  · exact ⟨m, le, free, burst⟩
  · obtain ⟨m', le', free', next⟩ := endless.exists_next_burst (fun k le' => quiet k (le.trans le')) free
    refine ⟨m', le.trans le', free', ?_⟩
    rw [next, counterBurst_succ]
    cases owner <;> simpa using burst

/-- After a reset from outside neither SEQUENCER nor COUNTER is enabled. -/
theorem EndlessRun.reset_disables {n : Nat} (reset : (input n).reset = true) :
    enabled .sequencer (run (n + 1)) = false ∧ enabled .counter (run (n + 1)) = false := by
  have after := (step_receive_reset (run n) reset).symm.trans (endless n)
  injection after with after
  rw [← after]
  exact ⟨rfl, rfl⟩

/-- While SEQUENCER or COUNTER stays enabled no reset comes from outside. -/
theorem EndlessRun.quiet_of_enabled {agent : Agent} (fair : agent = .sequencer ∨ agent = .counter) {n : Nat}
    (stays : ∀ m, n ≤ m → enabled agent (run m) = true) : ∀ m, n ≤ m → (input m).reset = false := by
  intro m le
  by_contra reset
  obtain ⟨noSequencer, noCounter⟩ := endless.reset_disables (Bool.of_not_eq_false reset)
  have on := stays (m + 1) (by omega)
  rcases fair with rfl | rfl
  · rw [noSequencer] at on; cases on
  · rw [noCounter] at on; cases on

end

/-- With no turn listed and no reset from outside, the turn is the free one. -/
theorem currentTurn_receive_free {input : Input} {s : State} (quiet : input.reset = false) (free : s.turns = []) :
    currentTurn (receive input s) = freeTurn s := by
  have none : (receive input s).turns = [] := by simp [quiet, free]
  simp only [currentTurn, none]
  rfl

/-- SEQUENCER, where it stays enabled, steps in the processor side's next burst. -/
theorem EndlessRun.sequencer_weaklyFair {input : Nat → Input} {run : Nat → State} (endless : EndlessRun input run) :
    WeaklyFair .sequencer input run := by
  intro n stays
  have quiet := endless.quiet_of_enabled (.inl rfl) stays
  obtain ⟨m, le, free, burst⟩ := endless.exists_burst quiet false
  have active : (run m).sact = true := stays m le
  have turn : currentTurn (receive (input m) (run m)) = .processor := by
    rw [currentTurn_receive_free (quiet m le) free, freeTurn_of_active active, burst]
    rfl
  exact ⟨m, le, (stepper_processorSide (.inl turn)).trans (processorStepper_of_active active)⟩

/-- COUNTER, where it stays enabled, steps in its own next burst. -/
theorem EndlessRun.counter_weaklyFair {input : Nat → Input} {run : Nat → State} (endless : EndlessRun input run) :
    WeaklyFair .counter input run := by
  intro n stays
  have quiet := endless.quiet_of_enabled (.inr rfl) stays
  obtain ⟨m, le, free, burst⟩ := endless.exists_burst quiet true
  have armed : (run m).run = true := stays m le
  have turn : currentTurn (receive (input m) (run m)) = .counter := by
    rw [currentTurn_receive_free (quiet m le) free, freeTurn_of_counterBurst burst]
  exact ⟨m, le, stepper_counter turn armed⟩

/-- Settles O53: the bursts of free turns give the fairness, and `step_of_stepper` says whose the steps are. -/
theorem sequencerAndCounterAreWeaklyFair : Obligations.SequencerAndCounterAreWeaklyFair := by
  refine ⟨fun input run endless => ⟨endless.sequencer_weaklyFair, endless.counter_weaklyFair⟩,
    fun s who => ?_, fun s who => ?_⟩
  · obtain ⟨-, e⟩ := step_of_stepper who
    exact e
  · obtain ⟨-, e⟩ := step_of_stepper who
    exact e

end Sys2Proof.Machine
end

section
/-! SUPPORT. What a command can do, said once (spec/40_commands.md R91 to R93), and the words of HOST and of the ROM
read back from what they decode to (spec/30_encoding.md R73). -/

namespace Sys2Proof

/-! A decoded word is the encoding of its operation, for each operand form. -/

theorem encode_of_decodeBare {i j : Instr} {w : Word} {op : BitVec 8} (h : decodeBare i w = .ok j)
    (opcode : opField w = op) (row : encode i = encodeBare op) : encode j = w := by
  obtain ⟨zero, rfl⟩ := decodeBare_ok h
  rw [row, encodeBare, ← zero, ← opcode, formatW_fields]

theorem encode_of_decodeUnits {f : Units → Instr} {w : Word} {j : Instr} {op : BitVec 8}
    (h : decodeUnits f w = .ok j) (opcode : opField w = op) (row : ∀ k, encode (f k) = encodeUnits op k) :
    encode j = w := by
  obtain ⟨zero, rfl⟩ := decodeUnits_ok h
  rw [row, encodeUnits, zeroExtend_units w zero, ← opcode, formatW_fields]

theorem encode_of_decodeTarget {f : Index → Instr} {w : Word} {j : Instr} {op : BitVec 8}
    (h : decodeTarget f w = .ok j) (opcode : opField w = op) (row : ∀ k, encode (f k) = encodeTarget op k) :
    encode j = w := by
  obtain ⟨zero, -, rfl⟩ := decodeTarget_ok h
  rw [row, encodeTarget, zeroExtend_target w zero, ← opcode, formatW_fields]

theorem encodeColor_colorField {w : Word} {op : BitVec 8} (opcode : opField w = op) :
    encodeColor op (colorField w) = w :=
  opcode ▸ formatW_fields w

/-- A word is the encoding of what it decodes to: its opcode picks the row, and the row's operand form gives the rest
of it. -/
theorem encode_of_decode {w : Word} {i : Instr} (h : decode w = .ok i) : encode i = w := by
  rcases opField_cases w with op | op | op | op | op | op | op | op | op | op | op | op | op | op | op | op | op
  · cases (decode_start w op).symm.trans h
    exact encodeColor_colorField op
  · cases (decode_setIdle w op).symm.trans h
    exact encodeColor_colorField op
  · cases (decode_transmit w op).symm.trans h
    exact encodeColor_colorField op
  · exact encode_of_decodeBare ((decode_nop w op).symm.trans h) op rfl
  · exact encode_of_decodeUnits ((decode_udelay w op).symm.trans h) op (fun _ => rfl)
  · exact encode_of_decodeBare ((decode_pinHi w op).symm.trans h) op rfl
  · exact encode_of_decodeBare ((decode_pinLo w op).symm.trans h) op rfl
  · exact encode_of_decodeBare ((decode_irqSave w op).symm.trans h) op rfl
  · exact encode_of_decodeBare ((decode_irqRest w op).symm.trans h) op rfl
  · exact encode_of_decodeBare ((decode_ldMask w op).symm.trans h) op rfl
  · exact encode_of_decodeBare ((decode_tst w op).symm.trans h) op rfl
  · exact encode_of_decodeBare ((decode_shr w op).symm.trans h) op rfl
  · exact encode_of_decodeTarget ((decode_b w op).symm.trans h) op (fun _ => rfl)
  · exact encode_of_decodeTarget ((decode_bf w op).symm.trans h) op (fun _ => rfl)
  · exact encode_of_decodeTarget ((decode_bnz w op).symm.trans h) op (fun _ => rfl)
  · exact encode_of_decodeBare ((decode_ret w op).symm.trans h) op rfl
  · cases (decode_reserved w op).symm.trans h

end Sys2Proof

namespace Sys2Proof.Machine

/-- Everything a command that is not refused can do: START arms the block, SETIDLE writes the idle colour, TRANSMIT
starts a transmission. -/
theorem exec_command_cases {i : Instr} {s t : State} (command : i.isCommand = true) (h : exec i s = .next t) :
    (∃ color, i = .start color ∧ s.run = false ∧ t = { writeIdle (colorWord color) s with
      pinoe := true, pin := false, count := 0, mcf := false, ovf := false, mcen := true, ovfen := true, run := true }) ∨
    (∃ color, i = .setIdle color ∧ t = writeIdle (colorWord color) s) ∨
    (∃ color, i = .transmit color ∧ s.pinoe = true ∧ t = startTx color s) := by
  cases i <;> simp only [Instr.isCommand, Bool.false_eq_true] at command
  case start color =>
    cases armed : s.run <;> simp only [exec, execStart, armed, if_true, Bool.false_eq_true, if_false] at h <;> cases h
    exact .inl ⟨color, rfl, rfl, rfl⟩
  case setIdle color =>
    cases h
    exact .inr (.inl ⟨color, rfl, rfl⟩)
  case transmit color =>
    cases output : s.pinoe <;>
      simp only [exec, execTransmit, output, if_true, Bool.false_eq_true, if_false] at h <;> cases h
    exact .inr (.inr ⟨color, rfl, rfl, rfl⟩)

end Sys2Proof.Machine
end

section
/-! SUPPORT. What each agent's step keeps of the invariants (spec/10_state.md R41). -/

namespace Sys2Proof.Machine

/-- The registers the active sequencer works with agree with its place in the program (R41 items 7 and 8; R117). -/
structure InProgram (s : State) : Prop where
  indexBound : s.spc.toNat ≤ 16
  mask : 2 ≤ s.spc.toNat → s.spc.toNat ≤ 14 → OneHot s.m ∨ s.spc.toNat = 14 ∧ s.m = 0#24
  masked : 1 ≤ s.spc.toNat → s.spc.toNat ≤ 15 → s.im = true
  pin : s.pin = pinAtIndex s.spc.toNat
  delay : s.dly ≠ 0 → s.dly < unitsAtIndex s.spc.toNat * Config.unitNops

theorem SafeState.inProgram {s : State} (safe : SafeState s) (active : s.sact = true) : InProgram s where
  indexBound := safe.indexBound
  mask := safe.maskOneHot active
  masked := safe.masked active
  pin := safe.pinMatchesIndex active
  delay := safe.delayMatchesIndex

/-- An active state is safe where its program's registers are, its scheduler is that of a safe state, and the pin is
an output. -/
theorem InProgram.safeState {s t : State} (place : InProgram t) (active : t.sact = true) (safe : SafeState s)
    (output : t.pinoe = true) (mcen : t.mcen = s.mcen) (ovfen : t.ovfen = s.ovfen) (run : t.run = s.run)
    (count : t.count = s.count) (mcf : s.mcf = false → t.mcf = false) (ovf : s.ovf = false → t.ovf = false)
    (idle : t.idle = s.idle) (rom : t.rom = s.rom) : SafeState t where
  inactiveIndex inactive := by rw [active] at inactive; cases inactive
  handlerActive _ := active
  armed := by
    rw [run, mcen, ovfen]
    exact fun h => ⟨output, (safe.armed h).2⟩
  unarmed := by
    rw [run, mcen, ovfen, count]
    intro h
    obtain ⟨zero, noMcf, noOvf, enables⟩ := safe.unarmed h
    exact ⟨zero, mcf noMcf, ovf noOvf, enables⟩
  countBound := count ▸ safe.countBound
  activePin _ := output
  maskOneHot _ := place.mask
  masked _ := place.masked
  idlePin inactive := by rw [active] at inactive; cases inactive
  idleTop := idle ▸ safe.idleTop
  romIsListing := rom.trans safe.romIsListing
  indexBound := place.indexBound
  pinMatchesIndex _ := place.pin
  delayMatchesIndex := place.delay

/-- The turns are not the invariants'. -/
theorem SafeState.afterTurn {s : State} (safe : SafeState s) : SafeState (afterTurn s) := by
  unfold Machine.afterTurn
  split
  · exact { safe with }
  · obtain ⟨draws, spent, e⟩ := afterFreeTurn_eq s
    rw [e]
    exact { safe with }

/-- In an armed block the count may take any value below the period, and the event flags any. -/
theorem SafeState.counted {s : State} (safe : SafeState s) (armed : s.run = true) {count : Nat} {mcf ovf : Bool}
    (bound : count < Config.periodTicks) : SafeState { s with count := count, mcf := mcf, ovf := ovf } :=
  { safe with
    countBound := bound
    unarmed := fun h => by rw [armed] at h; cases h }

/-- A tick starts again at the last count of the period. -/
theorem SafeState.counterStep {s : State} (safe : SafeState s) (armed : s.run = true) :
    SafeState (counterStep s) := by
  have bound := safe.countBound
  unfold Machine.counterStep
  rcases tick_cases Config.periodTicks Config.shortTicks s with ⟨-, e⟩ | ⟨notLast, -, e⟩ | ⟨notLast, -, e⟩ <;> rw [e]
  · exact safe.counted armed (by omega)
  · exact safe.counted armed (by omega)
  · exact safe.counted armed (by omega)

/-- `StartTx` on an inactive block: the program stands at index 0 with the pin low. -/
theorem SafeState.startTx_inProgram {s : State} (safe : SafeState s) (inactive : s.sact = false) (color : Color) :
    InProgram (startTx color s) where
  indexBound := by simp
  mask := by simp
  masked := by simp
  pin := safe.idlePin inactive
  delay := by simp

/-- `StartTx` with the pin an output; an entry also sets `HACT` and may clear event flags. -/
theorem SafeState.startTx {s : State} (safe : SafeState s) (inactive : s.sact = false) (output : s.pinoe = true)
    {color : Color} {hact mcf ovf : Bool} (mcfKept : s.mcf = false → mcf = false)
    (ovfKept : s.ovf = false → ovf = false) :
    SafeState (startTx color { s with hact := hact, mcf := mcf, ovf := ovf }) :=
  InProgram.safeState { safe.startTx_inProgram inactive color with } rfl safe output rfl rfl rfl rfl mcfKept ovfKept
    rfl rfl

/-- A pending event says that the block is armed. -/
theorem SafeState.run_of_event {s : State} (safe : SafeState s) (event : s.mcf = true ∨ s.ovf = true) :
    s.run = true := by
  by_contra unarmed
  obtain ⟨-, mcf, ovf, -⟩ := safe.unarmed (Bool.eq_false_of_not_eq_true unarmed)
  simp [mcf, ovf] at event

/-- The interrupt entry: the event it services says that the pin is an output. -/
theorem SafeState.interruptEntry {s : State} (safe : SafeState s) (take : takeable s = true) :
    SafeState (interruptEntry s) := by
  obtain ⟨-, -, thread, inactive⟩ := (takeable_iff s).1 take
  rcases interruptEntry_cases s with ⟨mcf, e⟩ | ⟨-, ovf, e⟩ | ⟨-, -, e⟩ <;> rw [e]
  · exact safe.startTx inactive (safe.armed (safe.run_of_event (.inl mcf))).1 (fun _ => rfl) id
  · exact safe.startTx inactive (safe.armed (safe.run_of_event (.inr ovf))).1 id (fun _ => rfl)
  · exact { safe with handlerActive := nofun }

theorem colorWord_top (color : Color) : (colorWord color).extractLsb' 24 8 = 0#8 := by
  apply BitVec.eq_of_getLsbD_eq
  intro i hi
  simp [colorWord]

/-- A command at a ready port. -/
theorem SafeState.exec_command {i : Instr} {s t : State} (safe : SafeState s) (inactive : s.sact = false)
    (command : i.isCommand = true) (h : exec i s = .next t) : SafeState t := by
  rcases exec_command_cases command h with ⟨color, -, -, rfl⟩ | ⟨color, -, rfl⟩ | ⟨color, -, output, rfl⟩
  · exact { safe with
      armed := fun _ => ⟨rfl, rfl, rfl⟩
      unarmed := nofun
      countBound := Nat.zero_lt_of_lt safe.countBound
      activePin := fun _ => rfl
      idlePin := fun _ => rfl
      idleTop := by simpa using colorWord_top color
      pinMatchesIndex := fun active => by simp [inactive] at active }
  · exact { safe with idleTop := by simpa using colorWord_top color }
  · exact safe.startTx inactive output id id

/-- The end of a transmission, which the program reaches with the pin low. -/
theorem SafeState.endTransmission {s : State} (safe : SafeState s) (low : s.pin = false) :
    SafeState (endTransmission s) :=
  { safe with
    inactiveIndex := fun _ => ⟨rfl, rfl⟩
    handlerActive := by simp
    activePin := nofun
    maskOneHot := nofun
    masked := nofun
    idlePin := fun _ => low
    indexBound := by simp
    pinMatchesIndex := nofun
    delayMatchesIndex := by simp }

end Sys2Proof.Machine
end

section
/-! SUPPORT. One step through the fixed program (spec/41_sequencer.md R117): from every place it keeps the registers in
agreement with the place, and it brings the end of the transmission nearer (R120). -/

namespace Sys2Proof.Machine

/-! The mask. -/

theorem OneHot.shiftMask {m : Color} (one : OneHot m) : OneHot (shiftMask m) ∨ shiftMask m = 0#24 := by
  obtain ⟨i, bound, rfl⟩ := one
  cases i with
  | zero => exact .inr (by decide)
  | succ i =>
    have shifted : ∀ i, i < 23 → (1#24 <<< (i + 1)) >>> 1 = 1#24 <<< i := by decide
    exact .inl ⟨i, by omega, shifted i (by omega)⟩

theorem OneHot.toNat_pos {m : Color} (one : OneHot m) : 0 < m.toNat := by
  obtain ⟨i, bound, rfl⟩ := one
  revert i
  decide

theorem OneHot.shiftMask_lt {m : Color} (one : OneHot m) : (Machine.shiftMask m).toNat < m.toNat := by
  have := one.toNat_pos
  simp only [Machine.shiftMask, BitVec.toNat_ushiftRight, Nat.shiftRight_eq_div_pow]
  omega

/-! How far the end of the transmission is: the bits still to come, then the places of the program up to the next
return to its loop at index 14, then the slots of the UDELAY. -/

/-- A bound of the passes through the loop, which only the mask's shift lowers once the mask is loaded. -/
def passesLeft (s : State) : Nat := if s.spc.toNat ≤ 1 then 2 ^ 24 else s.m.toNat

/-- The places from an index on; the loop is counted from BNZ, index 14, which the shift before it leads to. -/
def placesLeft (i : Nat) : Nat := if i = 14 then 15 else 16 - i

/-- The slots the UDELAY at an index still has to spend. -/
def slotsLeft (s : State) : Nat := if s.dly = 0 then unitsAtIndex s.spc.toNat * Config.unitNops else s.dly

/-- What every SEQUENCER step lowers. -/
def stepsLeft (s : State) : ℕ ×ₗ ℕ ×ₗ ℕ := toLex (passesLeft s, toLex (placesLeft s.spc.toNat, slotsLeft s))

theorem stepsLeft_lt_of_passesLeft {s t : State} (h : passesLeft t < passesLeft s) : stepsLeft t < stepsLeft s :=
  Prod.Lex.toLex_lt_toLex.2 (.inl h)

theorem stepsLeft_lt_of_placesLeft {s t : State} (passes : passesLeft t = passesLeft s)
    (h : placesLeft t.spc.toNat < placesLeft s.spc.toNat) : stepsLeft t < stepsLeft s :=
  Prod.Lex.toLex_lt_toLex.2 (.inr ⟨passes, Prod.Lex.toLex_lt_toLex.2 (.inl h)⟩)

theorem stepsLeft_lt_of_slotsLeft {s t : State} (passes : passesLeft t = passesLeft s)
    (places : placesLeft t.spc.toNat = placesLeft s.spc.toNat) (h : slotsLeft t < slotsLeft s) :
    stepsLeft t < stepsLeft s :=
  Prod.Lex.toLex_lt_toLex.2 (.inr ⟨passes, Prod.Lex.toLex_lt_toLex.2 (.inr ⟨places, h⟩)⟩)

/-- `t` is a further place of the transmission that `s` is in. -/
structure IsFurther (s t : State) : Prop extends InProgram t where
  active : t.sact = true
  nearer : stepsLeft t < stepsLeft s

/-- Between the loading of the mask and the test of its last shift the mask has one bit. -/
theorem InProgram.oneHot {s : State} (place : InProgram s) (low : 2 ≤ s.spc.toNat) (high : s.spc.toNat ≤ 13) :
    OneHot s.m :=
  (place.mask low (by omega)).resolve_right (by omega)

/-- A move inside the loop, or from BNZ out of it, that leaves the mask and the interrupt mask as they are. -/
theorem InProgram.isFurther_of_move {s t : State} (place : InProgram s) (active : t.sact = true) {i j : Nat}
    (index : s.spc.toNat = i) (target : t.spc.toNat = j)
    (move : 2 ≤ i ∧ i ≤ 14 ∧ 2 ≤ j ∧ j ≤ 15 ∧ placesLeft j < placesLeft i)
    (one : j ≤ 14 → OneHot s.m) (pin : t.pin = pinAtIndex j)
    (m : t.m = s.m := by rfl) (im : t.im = s.im := by rfl) (rest : t.dly = 0) : IsFurther s t := by
  subst i j
  obtain ⟨low, high, low', high', ahead⟩ := move
  exact {
    indexBound := by omega
    mask := fun _ inside => .inl (m ▸ one inside)
    masked := fun _ _ => im ▸ place.masked (by omega) (by omega)
    pin := pin
    delay := fun busy => absurd rest busy
    active := active
    nearer := by
      refine stepsLeft_lt_of_placesLeft ?_ ahead
      rw [passesLeft, passesLeft, if_neg (by omega), if_neg (by omega), m] }

/-- Where no UDELAY stands no delay is in progress. -/
theorem InProgram.rest {s : State} (place : InProgram s) (noDelay : unitsAtIndex s.spc.toNat = 0) : s.dly = 0 := by
  by_contra busy
  have := place.delay busy
  simp [noDelay] at this

/-- A move inside the loop, from a place where no UDELAY stands. -/
theorem InProgram.isFurther_of_step {s t : State} (place : InProgram s) (active : t.sact = true) {i j : Nat}
    (index : s.spc.toNat = i) (target : t.spc.toNat = j)
    (move : 2 ≤ i ∧ i ≤ 13 ∧ unitsAtIndex i = 0 ∧ 2 ≤ j ∧ j ≤ 15 ∧ placesLeft j < placesLeft i)
    (pin : t.pin = pinAtIndex j)
    (m : t.m = s.m := by rfl) (im : t.im = s.im := by rfl) (dly : t.dly = s.dly := by rfl) : IsFurther s t := by
  subst i
  obtain ⟨low, high, noDelay, move⟩ := move
  exact place.isFurther_of_move active rfl target ⟨low, by omega, move⟩ (fun _ => place.oneHot low high) pin m im
    (dly.trans (place.rest noDelay))

/-- A UDELAY stands inside the loop, and leaves the pin as the next place has it. -/
theorem unitsAtIndex_place {i : Nat} (units : unitsAtIndex i ≠ 0) :
    (2 ≤ i ∧ i ≤ 14 ∧ 2 ≤ i + 1 ∧ i + 1 ≤ 15 ∧ placesLeft (i + 1) < placesLeft i) ∧
    i ≤ 13 ∧ pinAtIndex i = pinAtIndex (i + 1) := by
  have bound : i < 13 := by
    by_contra far
    exact units (by simp only [unitsAtIndex]; (repeat' split) <;> omega)
  revert units
  interval_cases i <;> decide

theorem toNat_succ {index : Index} (bound : index.toNat ≤ 16) : (index + 1).toNat = index.toNat + 1 := by
  rw [BitVec.toNat_add]
  exact Nat.mod_eq_of_lt (by simp; omega)

/-- A step of the UDELAY at an index: its last slot leads to the next index, any other leaves one slot fewer. -/
theorem InProgram.delayStep_isFurther {s : State} (place : InProgram s) (active : s.sact = true)
    (units : unitsAtIndex s.spc.toNat ≠ 0) :
    IsFurther s (delayStep (unitsAtIndex s.spc.toNat * Config.unitNops) s) := by
  obtain ⟨move, high, pin⟩ := unitsAtIndex_place units
  have slots : unitsAtIndex s.spc.toNat * Config.unitNops ≠ 0 :=
    Nat.mul_ne_zero units (Nat.ne_of_gt Config.unitNops_pos)
  rcases delayStep_cases (unitsAtIndex s.spc.toNat * Config.unitNops) s with
    ⟨zero, -⟩ | ⟨-, -, e⟩ | ⟨-, more, e⟩
  · exact absurd zero slots
  · rw [e]
    exact place.isFurther_of_move active rfl (toNat_succ place.indexBound) move
      (fun _ => place.oneHot move.1 high) (place.pin.trans pin) (rest := rfl)
  · have left : slotsLeft s = if s.dly = 0 then unitsAtIndex s.spc.toNat * Config.unitNops else s.dly := rfl
    rw [← left] at more e
    have pos : slotsLeft s ≠ 0 := by
      rw [left]; split <;> assumption
    have below : slotsLeft s ≤ unitsAtIndex s.spc.toNat * Config.unitNops := by
      rw [left]
      split
      · exact le_rfl
      · exact (place.delay ‹_›).le
    rw [e]
    have kept : slotsLeft s - 1 ≠ 0 := by omega
    exact { place with
      delay := fun _ => Nat.lt_of_lt_of_le (Nat.sub_one_lt pos) below
      active := active
      nearer := stepsLeft_lt_of_slotsLeft rfl rfl ((if_neg kept).trans_lt (Nat.sub_one_lt pos)) }

/-- From every place but RET, the program's operation leads to a further place of the transmission. -/
theorem InProgram.exec_listing {s : State} (place : InProgram s) (active : s.sact = true) (noRet : s.spc.toNat ≠ 16) :
    ∃ t, exec (listingAt s.spc.toNat) s = .next t ∧ IsFurther s t := by
  have bound := place.indexBound
  have next := toNat_succ bound
  have one := place.oneHot
  have still := place.rest
  have delay := place.delayStep_isFurther active
  have pin := place.pin
  have mask := place.mask
  have masked := place.masked
  generalize index : s.spc.toNat = i at *
  interval_cases i
  -- Index 0: IRQSAVE.
  · exact ⟨_, rfl, {
      indexBound := by simp [index]
      mask := by simp [index]
      masked := by simp
      pin := by simp [pin, index, pinAtIndex]
      delay := by simp [still, unitsAtIndex]
      active := active
      nearer := stepsLeft_lt_of_placesLeft (by simp [passesLeft, index]) (by simp [index, placesLeft]) }⟩
  -- Index 1: LDMASK.
  · exact ⟨_, rfl, {
      indexBound := by simp [index]
      mask := fun _ _ => .inl ⟨23, by decide, (by decide : Config.msbMask = 1#24 <<< 23)⟩
      masked := fun _ _ => masked (by decide) (by decide)
      pin := by simp [pin, index, pinAtIndex]
      delay := by simp [still, unitsAtIndex]
      active := active
      nearer := stepsLeft_lt_of_passesLeft (by simp [passesLeft, index, Config.msbMask]) }⟩
  -- Index 2: TST.
  · exact ⟨_, rfl, place.isFurther_of_step active index next (by decide) pin⟩
  -- Index 3: BF.
  · cases t : s.t
    · exact ⟨jump 9#5 s, by simp [listingAt, exec, execBf, t],
        place.isFurther_of_step active index (j := 9) rfl (by decide) pin⟩
    · exact ⟨advance s, by simp [listingAt, exec, execBf, t],
        place.isFurther_of_step active index next (by decide) pin⟩
  -- Index 4: PINHI.
  · exact ⟨_, rfl, place.isFurther_of_step active index next (by decide) rfl⟩
  -- Index 5: UDELAY, the long high hold.
  · exact ⟨_, rfl, delay (by decide)⟩
  -- Index 6: PINLO.
  · exact ⟨_, rfl, place.isFurther_of_step active index next (by decide) rfl⟩
  -- Index 7: UDELAY, the short low hold.
  · exact ⟨_, rfl, delay (by decide)⟩
  -- Index 8: B.
  · exact ⟨_, rfl, place.isFurther_of_step active index (j := 13) rfl (by decide) pin⟩
  -- Index 9: PINHI.
  · exact ⟨_, rfl, place.isFurther_of_step active index next (by decide) rfl⟩
  -- Index 10: UDELAY, the short high hold.
  · exact ⟨_, rfl, delay (by decide)⟩
  -- Index 11: PINLO.
  · exact ⟨_, rfl, place.isFurther_of_step active index next (by decide) rfl⟩
  -- Index 12: UDELAY, the long low hold.
  · exact ⟨_, rfl, delay (by decide)⟩
  -- Index 13: SHR.
  · have one := one (by decide) (by decide)
    exact ⟨_, rfl, {
      indexBound := by simp [index]
      mask := fun _ _ => one.shiftMask.imp_right fun zero => ⟨next, zero⟩
      masked := fun _ _ => masked (by decide) (by decide)
      pin := by simp [pin, index, pinAtIndex]
      delay := by simp [still, unitsAtIndex]
      active := active
      nearer := stepsLeft_lt_of_passesLeft (by simpa [passesLeft, index] using one.shiftMask_lt) }⟩
  -- Index 14: BNZ.
  · by_cases empty : s.m = 0#24
    · exact ⟨advance s, by simp [listingAt, exec, execBnz, empty],
        place.isFurther_of_move active index next (by decide) (fun out => absurd out (by decide))
          pin (rest := still rfl)⟩
    · have one := (mask (by decide) (by decide)).resolve_right (fun h => empty h.2)
      exact ⟨jump 2#5 s, by simp [listingAt, exec, execBnz, empty],
        place.isFurther_of_move active index (j := 2) rfl (by decide) (fun _ => one) pin (rest := still rfl)⟩
  -- Index 15: IRQREST.
  · exact ⟨_, rfl, {
      indexBound := by simp [index]
      mask := by simp [index]
      masked := by simp [index]
      pin := by simp [pin, index, pinAtIndex]
      delay := by simp [still, unitsAtIndex]
      active := active
      nearer := stepsLeft_lt_of_placesLeft (by simp [passesLeft, index]) (by simp [index, placesLeft]) }⟩
  -- Index 16: RET.
  · exact absurd rfl noRet

end Sys2Proof.Machine
end

section
/-! SUPPORT. The invariants of spec/10_state.md R41 hold after reset, and every agent's step keeps them. -/

namespace Sys2Proof.Machine

/-- A sequencer operation that answers a further place of the transmission keeps the invariants: of the scheduler's
state it changes nothing. -/
theorem SafeState.exec_listing_isFurther {i : Instr} {s t : State} (safe : SafeState s) (active : s.sact = true)
    (sequencer : i.isCommand = false) (h : exec i s = .next t) (further : IsFurther s t) : SafeState t := by
  obtain ⟨t', e, -, pinoe, idle, count, mcf, ovf, mcen, ovfen, run, -, rom, -⟩ := exec_sequencer_frame s sequencer
  rw [h] at e; cases e
  exact further.toInProgram.safeState further.active safe (pinoe.trans (safe.activePin active)) mcen ovfen run count
    mcf.trans ovf.trans idle rom

theorem isCommand_listingAt (i : Nat) : (listingAt i).isCommand = false := by
  unfold listingAt
  split <;> rfl

/-- What the active sequencer of a safe state does: RET's end of the transmission, or a further place of it. -/
theorem SafeState.sequencerStep_cases {s : State} (safe : SafeState s) (active : s.sact = true) :
    (sequencerStep s = .next (Machine.endTransmission s) ∧ SafeState (Machine.endTransmission s)) ∨
    ∃ t, sequencerStep s = .next t ∧ t.c = s.c ∧ IsFurther s t ∧ SafeState t := by
  have place := safe.inProgram active
  rw [sequencerStep_listing safe.romIsListing safe.indexBound]
  by_cases ret : s.spc.toNat = 16
  · have pin := place.pin
    rw [ret] at pin
    exact .inl ⟨by rw [ret]; rfl, safe.endTransmission pin⟩
  · obtain ⟨t, e, further⟩ := place.exec_listing active ret
    obtain ⟨t', e', c, -⟩ := exec_sequencer_frame s (isCommand_listingAt s.spc.toNat)
    rw [e] at e'; cases e'
    exact .inr ⟨t, e, c, further, safe.exec_listing_isFurther active (isCommand_listingAt _) e further⟩

theorem SafeState.sequencerStep {s t : State} (safe : SafeState s) (active : s.sact = true)
    (h : sequencerStep s = .next t) : SafeState t := by
  rcases safe.sequencerStep_cases active with ⟨e, safe'⟩ | ⟨t', e, -, -, safe'⟩ <;>
    rw [e] at h <;> cases h <;> exact safe'

/-- A HOST step takes a word and performs its command. -/
theorem SafeState.hostStep {w : Word} {rest : List Word} {s t : State} (safe : SafeState s) (inactive : s.sact = false)
    (h : hostStep w { s with commands := rest } = .next t) : SafeState t := by
  rcases hostStep_cases w { s with commands := rest } with ⟨i, decoded, e⟩ | ⟨_, -, e⟩ <;> rw [e] at h
  · have taken : SafeState { s with commands := rest } := { safe with }
    exact taken.exec_command inactive (onlyClass_ok_iff.1 decoded).2 h
  · cases h

/-- Reset, and the ROM with it at the listing. -/
theorem safeState_resetStep {s : State} (rom : s.rom = []) : SafeState (resetStep s) where
  inactiveIndex _ := ⟨rfl, rfl⟩
  handlerActive := nofun
  armed := nofun
  unarmed _ := ⟨rfl, rfl, rfl, rfl, rfl⟩
  countBound := Nat.zero_lt_of_lt Config.shortTicks_lt_periodTicks
  activePin := nofun
  maskOneHot := nofun
  masked := nofun
  idlePin _ := rfl
  idleTop := (by decide : (0#32).extractLsb' 24 8 = 0#8)
  romIsListing := rom
  indexBound := Nat.zero_le _
  pinMatchesIndex := nofun
  delayMatchesIndex busy := absurd rfl busy

/-- Settles O49: the reset of the block from its own reset state is that state. -/
theorem resetMeetsTheInvariants : Obligations.ResetMeetsTheInvariants :=
  safeState_resetStep (s := State.reset) rfl

/-- Settles O48, agent by agent: the state whose turn has been taken is safe, and each agent's step keeps that. -/
theorem stepKeepsTheInvariants : Obligations.StepKeepsTheInvariants := by
  intro s t safe h
  have taken := safe.afterTurn
  by_cases turn : currentTurn s = .reset
  · rw [step_reset turn] at h; cases h
    exact safeState_resetStep taken.romIsListing
  have agentStep := step_isStepOf turn
  rw [h] at agentStep
  cases who : stepper s with
  | none =>
    rw [who] at agentStep
    rcases agentStep with ⟨-, -, -, e⟩ | ⟨-, e⟩ <;> cases e
    exact taken
  | some agent =>
    rw [who] at agentStep
    cases agent with
    | sequencer =>
      obtain ⟨active, e⟩ := agentStep
      exact taken.sequencerStep active e.symm
    | dispatcher =>
      obtain ⟨take, e⟩ := agentStep
      cases e
      exact taken.interruptEntry take
    | host =>
      obtain ⟨ready, w, rest, -, e⟩ := agentStep
      exact taken.hostStep ((hostEnabled_iff _).1 ready).1 e.symm
    | counter =>
      obtain ⟨armed, e⟩ := agentStep
      cases e
      exact taken.counterStep armed

theorem unitsAtIndex_le (i : Nat) : unitsAtIndex i ≤ 16 := by
  simp only [unitsAtIndex, Config.k1h_eq, Config.k1l_eq, Config.k0h_eq, Config.k0l_eq]
  (repeat' split) <;> omega

/-- Settles O50: DLY is less than the slots of the UDELAY at its index, at most 16 units, and COUNT less than the
period. -/
theorem countersFitTheirWidths : Obligations.CountersFitTheirWidths := by
  intro s safe
  refine ⟨?_, safe.countBound.trans_le Config.periodTicks_le_pow_countBits⟩
  by_cases busy : s.dly = 0
  · rw [busy]
    exact Nat.two_pow_pos _
  · calc s.dly < unitsAtIndex s.spc.toNat * Config.unitNops := safe.delayMatchesIndex busy
      _ ≤ 255 * Config.unitNops := Nat.mul_le_mul_right _ ((unitsAtIndex_le _).trans (by decide))
      _ < 2 ^ Config.dlyBits := Config.lt_pow_dlyBits

end Sys2Proof.Machine
end

section
/-! SUPPORT. Who writes the event flags, the armed state, the interrupt mask, the idle colour and the wire
(spec/10_state.md R27 to R37): each read off what a step can be. -/

namespace Sys2Proof.Machine

/-- What the entry clears it has serviced: the short event with the idle colour, the rollover event with white. -/
theorem interruptEntry_clears (s : State) :
    (s.mcf = true → (interruptEntry s).mcf = false →
      (interruptEntry s).c = idleColor s ∧ (interruptEntry s).ovf = s.ovf) ∧
    (s.ovf = true → (interruptEntry s).ovf = false →
      s.mcf = false ∧ (interruptEntry s).c = Config.white ∧ (interruptEntry s).mcf = s.mcf) := by
  rcases interruptEntry_cases s with ⟨mcf, e⟩ | ⟨mcf, ovf, e⟩ | ⟨mcf, ovf, e⟩ <;> rw [e] <;> simp_all

/-- The bits of the idle word that do not exist are none of the idle colour's. -/
theorem idleColor_eq (s : State) : idleColor s = s.idle.extractLsb' 0 24 := by
  have low : ∀ i, i < 24 → idleBits.getLsbD i = true := by decide
  apply BitVec.eq_of_getLsbD_eq
  intro i hi
  simp [idleColor, readIdle, hi, low i hi]

/-- Settles O39: ticks only raise the flags, and of the commands only START, while the block is not armed, clears
any. -/
theorem flagsAreClearedOnlyByServiceOrStart : Obligations.FlagsAreClearedOnlyByServiceOrStart := by
  intro s t turn h
  rcases step_cases_of_no_reset turn h with
    ⟨-, rfl⟩ | ⟨-, w, i, -, decoded, e⟩ | ⟨take, rfl⟩ | ⟨-, w, rest, i, words, decoded, e⟩ | ⟨-, -, -, rfl⟩
  · obtain ⟨mcf, ovf⟩ := counterStep_flags (afterTurn s)
    simp only [afterTurn_mcf, afterTurn_ovf] at mcf ovf
    simp +contextual [mcf, ovf]
  · obtain ⟨t', e', frame⟩ := exec_sequencer_frame (afterTurn s) (onlyClass_ok_iff.1 decoded).2
    rw [e] at e'; cases e'
    simp +contextual [frame]
  · obtain ⟨short, rollover⟩ := interruptEntry_clears (afterTurn s)
    simp only [idleColor_eq, afterTurn_mcf, afterTurn_ovf, afterTurn_idle] at short rollover
    exact ⟨fun set cleared => .inl ⟨take, short set cleared⟩, fun set cleared => .inl ⟨take, rollover set cleared⟩⟩
  · rcases exec_command_cases (onlyClass_ok_iff.1 decoded).2 e with
      ⟨color, rfl, unarmed, -⟩ | ⟨color, -, rfl⟩ | ⟨color, -, -, rfl⟩
    · have start : s.run = false ∧ ∃ w rest color, s.commands = w :: rest ∧ decodeCommand w = .ok (.start color) :=
        ⟨by simpa using unarmed, w, rest, color, words, decoded⟩
      exact ⟨fun _ _ => .inr start, fun _ _ => .inr start⟩
    · simp +contextual
    · simp +contextual
  · simp +contextual

/-- Settles O40: only START and reset write these elements, and START sets them. -/
theorem armedStateOutlastsEveryStep : Obligations.ArmedStateOutlastsEveryStep := by
  intro s t turn h
  rcases step_cases_of_no_reset turn h with
    ⟨-, rfl⟩ | ⟨-, w, i, -, decoded, e⟩ | ⟨-, rfl⟩ | ⟨-, w, rest, i, -, decoded, e⟩ | ⟨-, -, -, rfl⟩
  · simp
  · obtain ⟨t', e', frame⟩ := exec_sequencer_frame (afterTurn s) (onlyClass_ok_iff.1 decoded).2
    rw [e] at e'; cases e'
    simp [frame]
  · simp
  · rcases exec_command_cases (onlyClass_ok_iff.1 decoded).2 e with
      ⟨color, -, -, rfl⟩ | ⟨color, -, rfl⟩ | ⟨color, -, -, rfl⟩ <;> simp
  · simp

/-- Settles O41: of the sequencer operations only the two of the bracket write the mask, and each has one word. -/
theorem interruptMaskIsWrittenOnlyByTheBracket : Obligations.InterruptMaskIsWrittenOnlyByTheBracket := by
  intro s t turn h changed
  rcases step_cases_of_no_reset turn h with
    ⟨-, rfl⟩ | ⟨active, w, i, fetch, decoded, e⟩ | ⟨-, rfl⟩ | ⟨-, w, rest, i, -, decoded, e⟩ | ⟨-, -, -, rfl⟩
  · simp at changed
  · obtain ⟨decoded, sequencer⟩ := onlyClass_ok_iff.1 decoded
    obtain ⟨t', e', -, -, -, -, -, -, -, -, -, -, -, -, -, -, -, -, im⟩ := exec_sequencer_frame (afterTurn s) sequencer
    rw [e] at e'; cases e'
    refine ⟨active, w, fetch, ?_⟩
    rcases im with same | ⟨rfl, set⟩ | ⟨rfl, restored⟩
    · simp [same] at changed
    · exact .inl ⟨(encode_of_decode decoded).symm, set⟩
    · exact .inr ⟨(encode_of_decode decoded).symm, by simpa using restored⟩
  · simp at changed
  · rcases exec_command_cases (onlyClass_ok_iff.1 decoded).2 e with
      ⟨color, -, -, rfl⟩ | ⟨color, -, rfl⟩ | ⟨color, -, -, rfl⟩ <;> simp at changed
  · simp at changed

/-- Settles O42: of the commands START and SETIDLE write the idle word, with the colour their own word holds. -/
theorem idleColourIsWrittenOnlyByCommands : Obligations.IdleColourIsWrittenOnlyByCommands := by
  intro s t turn h changed
  rcases step_cases_of_no_reset turn h with
    ⟨-, rfl⟩ | ⟨-, w, i, -, decoded, e⟩ | ⟨-, rfl⟩ | ⟨ready, w, rest, i, words, decoded, e⟩ | ⟨-, -, -, rfl⟩
  · simp at changed
  · obtain ⟨t', e', frame⟩ := exec_sequencer_frame (afterTurn s) (onlyClass_ok_iff.1 decoded).2
    rw [e] at e'; cases e'
    simp [frame] at changed
  · simp at changed
  · obtain ⟨decoded, command⟩ := onlyClass_ok_iff.1 decoded
    refine ⟨ready, w, rest, words, ?_⟩
    rcases exec_command_cases command e with ⟨color, rfl, -, rfl⟩ | ⟨color, rfl, rfl⟩ | ⟨color, -, -, rfl⟩
    · rw [← encode_of_decode decoded]
      exact ⟨.inl (opField_formatW _ color), (colorWord_and_idleBits color).trans
        (congrArg colorWord (low24_formatW _ color)).symm⟩
    · rw [← encode_of_decode decoded]
      exact ⟨.inr (opField_formatW _ color), (colorWord_and_idleBits color).trans
        (congrArg colorWord (low24_formatW _ color)).symm⟩
    · simp at changed
  · simp at changed

/-- A sequencer operation leaves the direction of the pin. -/
theorem sequencerStep_pinoe {s t : State} (h : sequencerStep s = .next t) : t.pinoe = s.pinoe := by
  rcases sequencerStep_cases s with ⟨-, e⟩ | ⟨w, i, -, decoded, e⟩ | ⟨_, _, -, -, e⟩ <;> rw [e] at h
  · cases h
  · obtain ⟨t', e', -, pinoe, -⟩ := exec_sequencer_frame s (onlyClass_ok_iff.1 decoded).2
    rw [h] at e'; cases e'
    exact pinoe
  · cases h

/-- A HOST step leaves the direction of the pin, but for the START that arms the block: it makes the pin an output and
drives it low. -/
theorem hostStep_pinoe {w : Word} {s t : State} (h : hostStep w s = .next t) :
    t.pinoe = s.pinoe ∨ t.pinoe = true ∧ t.pin = false ∧ s.run = false ∧ t.run = true := by
  rcases hostStep_cases w s with ⟨i, decoded, e⟩ | ⟨_, -, e⟩ <;> rw [e] at h
  · rcases exec_command_cases (onlyClass_ok_iff.1 decoded).2 h with
      ⟨color, -, unarmed, rfl⟩ | ⟨color, -, rfl⟩ | ⟨color, -, -, rfl⟩
    · exact .inr ⟨rfl, rfl, unarmed, rfl⟩
    · exact .inl rfl
    · exact .inl rfl
  · cases h

/-- Only the START that arms the block changes the direction of the pin. -/
theorem step_pinoe {s t : State} (turn : currentTurn s ≠ .reset) (h : step s = .next t) :
    t.pinoe = s.pinoe ∨
    t.pinoe = true ∧ t.pin = false ∧ stepper s = some .host ∧ s.run = false ∧ t.run = true := by
  have agentStep := step_isStepOf turn
  rw [h] at agentStep
  cases who : stepper s with
  | none =>
    rw [who] at agentStep
    rcases agentStep with ⟨-, -, -, e⟩ | ⟨-, e⟩ <;> cases e
    simp
  | some agent =>
    rw [who] at agentStep
    cases agent with
    | sequencer =>
      obtain ⟨-, e⟩ := agentStep
      exact .inl (by simpa using sequencerStep_pinoe e.symm)
    | host =>
      obtain ⟨-, w, rest, -, e⟩ := agentStep
      simpa using hostStep_pinoe e.symm
    | dispatcher =>
      obtain ⟨-, e⟩ := agentStep
      cases e; simp
    | counter =>
      obtain ⟨-, e⟩ := agentStep
      cases e; simp

theorem wire_eq_none_iff (s : State) : wire s = none ↔ s.pinoe = false := by
  simp [wire]

theorem wire_eq_some_iff (s : State) (level : Bool) : wire s = some level ↔ s.pinoe = true ∧ s.pin = level := by
  simp [wire]

/-- HOST steps at a ready port only, where a safe state holds the pin low. -/
theorem SafeState.pin_of_host {s : State} (safe : SafeState s) (who : stepper s = some .host) : s.pin = false := by
  obtain ⟨ready, -⟩ := step_of_stepper who
  have ready : hostEnabled s = true := by simpa [enabled] using ready
  exact safe.idlePin ((hostEnabled_iff s).1 ready).1

/-- Settles O44: the direction changes only with START (`step_pinoe`), and what moves the pin is SEQUENCER or the START
that drives it low, where it is low already. -/
theorem onlyTheSequencerMovesADrivenWire : Obligations.OnlyTheSequencerMovesADrivenWire := by
  intro s t safe turn h
  obtain ⟨-, pin⟩ := onlyTheSequencerExtendsTheTrace s t turn h
  cases output : s.pinoe with
  | true =>
    obtain ⟨-, -, -, stays⟩ := armedStateOutlastsEveryStep s t turn h
    have driven : wire s = some s.pin := (wire_eq_some_iff s _).2 ⟨output, rfl⟩
    have driven' : wire t = some t.pin := (wire_eq_some_iff t _).2 ⟨stays output, rfl⟩
    rw [driven, driven']
    refine ⟨fun _ => ⟨nofun, fun moved => ?_⟩, nofun⟩
    by_contra other
    rcases pin other with same | ⟨low, host, -⟩
    · exact moved (congrArg some same)
    · exact moved (congrArg some (low.trans (safe.pin_of_host host).symm))
  | false =>
    have undriven : wire s = none := (wire_eq_none_iff s).2 output
    refine ⟨fun driven => absurd undriven driven, fun _ => ?_⟩
    rcases step_pinoe turn h with same | ⟨output', low, start⟩
    · exact .inl ((wire_eq_none_iff t).2 (same.trans output))
    · exact .inr ⟨(wire_eq_some_iff t _).2 ⟨output', low⟩, start⟩

end Sys2Proof.Machine
end

section
/-! SUPPORT. Every transmission ends (spec/10_state.md R26): SEQUENCER stays enabled while it runs, so by R7's fairness
it keeps stepping, and each of its steps lowers `stepsLeft`. -/

namespace Sys2Proof.Machine

theorem stepsLeft_afterTurn (s : State) : stepsLeft (afterTurn s) = stepsLeft s := by
  simp [stepsLeft, passesLeft, slotsLeft]

theorem stepsLeft_counterStep (s : State) : stepsLeft (counterStep s) = stepsLeft s := by
  simp [stepsLeft, passesLeft, slotsLeft]

/-- While a transmission runs, a step keeps its colour and ends it or comes no further from its end: a tick no nearer,
a SEQUENCER step nearer. -/
theorem SafeState.exists_step_of_active {s : State} (safe : SafeState s) (active : s.sact = true)
    (turn : currentTurn s ≠ .reset) :
    ∃ t, step s = .next t ∧ SafeState t ∧ t.c = s.c ∧
      (t.sact = true →
        stepsLeft t ≤ stepsLeft s ∧ (stepper s = some .sequencer → stepsLeft t < stepsLeft s)) := by
  rcases turn_cases s with reset | ⟨counter, armed⟩ | side
  · exact absurd reset turn
  · refine ⟨_, step_counter counter armed, safe.afterTurn.counterStep (by simpa using armed), by simp, fun _ => ?_⟩
    rw [stepsLeft_counterStep, stepsLeft_afterTurn, stepper_counter counter armed]
    exact ⟨le_rfl, nofun⟩
  · rw [step_sequencer side active]
    rcases safe.afterTurn.sequencerStep_cases (by simpa using active) with ⟨e, safe'⟩ | ⟨t, e, c, further, safe'⟩
    · exact ⟨_, e, safe', by simp, nofun⟩
    · have nearer : stepsLeft t < stepsLeft s := by simpa only [stepsLeft_afterTurn] using further.nearer
      exact ⟨t, e, safe', by simpa using c, fun _ => ⟨nearer.le, fun _ => nearer⟩⟩

/-- No run stays in a transmission for ever. -/
theorem EndlessRun.exists_inactive {input : Nat → Input} {run : Nat → State} (endless : EndlessRun input run)
    (alone : ∀ n, receive (input n) (run n) = run n) (safe : ∀ n, SafeState (run n))
    (noReset : ∀ n, currentTurn (run n) ≠ .reset) : ∃ n, (run n).sact = false := by
  by_contra! always
  have active : ∀ n, (run n).sact = true := fun n => Bool.eq_true_of_not_eq_false (always n)
  have lower (n : Nat) : stepsLeft (run (n + 1)) ≤ stepsLeft (run n) ∧
      (stepper (run n) = some .sequencer → stepsLeft (run (n + 1)) < stepsLeft (run n)) := by
    obtain ⟨t, e, -, -, left⟩ := (safe n).exists_step_of_active (active n) (noReset n)
    have e' := endless n
    rw [alone, e] at e'
    cases e'
    exact left (active (n + 1))
  have falls : Antitone fun n => stepsLeft (run n) := antitone_nat_of_succ_le fun n => (lower n).1
  obtain ⟨least, minimal⟩ : ∃ n, ∀ m, ¬stepsLeft (run m) < stepsLeft (run n) :=
    ⟨Function.argmin fun n => stepsLeft (run n), Function.not_lt_argmin fun n => stepsLeft (run n)⟩
  obtain ⟨m, later, steps⟩ := endless.sequencer_weaklyFair least fun n _ => active n
  rw [alone] at steps
  exact minimal (m + 1) (((lower m).2 steps).trans_le (falls later))

theorem coreRun_one {M : Host.Core} (s : M.State) : M.run 1 s = M.step s := by
  unfold Host.Core.run
  cases M.step s <;> rfl

theorem runSteps_one (s : State) : runSteps 1 s = step s := coreRun_one (M := Sys2Proof.core) s

theorem runSteps_succ_last {n : Nat} {s t : State} (h : runSteps n s = .next t) : runSteps (n + 1) s = step t :=
  (runSteps_add h).trans (runSteps_one t)

/-- No step lists a reset. -/
theorem step_reset_notMem {s t : State} (h : step s = .next t) (noReset : .reset ∉ s.turns) : .reset ∉ t.turns := by
  rw [(step_turns h).1]
  exact fun listed => noReset (afterTurn_turns_subset s _ listed)

/-- Settles O57: were no reachable state inactive with the colour kept, the run from `s` with nothing coming from
outside would stay in the transmission for ever. -/
theorem sequencerActivityEnds : Obligations.SequencerActivityEnds := by
  intro s safe active noReset
  by_contra! never
  have reach (n : Nat) : ∃ t, runSteps n s = .next t ∧ SafeState t ∧ t.c = s.c ∧ t.sact = true ∧ .reset ∉ t.turns := by
    induction n with
    | zero => exact ⟨s, rfl, safe, rfl, active, noReset⟩
    | succ n ih =>
      obtain ⟨t, run, safe, c, active, noReset⟩ := ih
      obtain ⟨t', e, safe', c', -⟩ := safe.exists_step_of_active active (currentTurn_ne_reset noReset)
      have run' := (runSteps_succ_last run).trans e
      refine ⟨t', run', safe', c'.trans c, ?_, step_reset_notMem e noReset⟩
      by_contra ended
      exact never _ _ run' (Bool.eq_false_of_not_eq_true ended) (c'.trans c)
  choose run reached safe c active noReset using reach
  have alone (n : Nat) : receive { words := [], reset := false } (run n) = run n := by simp [receive]
  have endless : EndlessRun (fun _ => { words := [], reset := false }) run := fun n => by
    rw [alone, ← runSteps_succ_last (reached n), reached (n + 1)]
  obtain ⟨n, ended⟩ := endless.exists_inactive alone safe fun n => currentTurn_ne_reset (noReset n)
  rw [active n] at ended
  cases ended

end Sys2Proof.Machine
end

section
/-! SUPPORT. No step writes the ROM (spec/20_memory.md R51, R64). -/

namespace Sys2Proof.Machine

/-- A command leaves the ROM. -/
theorem exec_command_rom {i : Instr} {s t : State} (command : i.isCommand = true) (h : exec i s = .next t) :
    t.rom = s.rom := by
  rcases exec_command_cases command h with ⟨color, -, -, rfl⟩ | ⟨color, -, rfl⟩ | ⟨color, -, -, rfl⟩
  · rfl
  · rfl
  · rfl

/-- A sequencer operation leaves the ROM. -/
theorem exec_sequencer_rom {i : Instr} {s t : State} (sequencer : i.isCommand = false) (h : exec i s = .next t) :
    t.rom = s.rom := by
  obtain ⟨t', e, frame⟩ := exec_sequencer_frame s sequencer
  rw [h] at e; cases e
  simp only [frame]

/-- Settles O45: neither class of operation writes the ROM, nor does a tick, an entry or a reset. -/
theorem noStepWritesTheRom : Obligations.NoStepWritesTheRom := by
  intro s t h
  rcases step_cases h with ⟨-, rfl⟩ | ⟨-, rfl⟩ | ⟨-, w, i, -, decoded, e⟩ | ⟨-, rfl⟩ |
    ⟨-, w, rest, i, -, decoded, e⟩ | ⟨-, -, -, rfl⟩
  · simp
  · simp
  · simpa using exec_sequencer_rom (onlyClass_ok_iff.1 decoded).2 e
  · simp
  · simpa using exec_command_rom (onlyClass_ok_iff.1 decoded).2 e
  · simp

end Sys2Proof.Machine
end

section
/-! SUPPORT. What a transmission still has to emit (spec/41_sequencer.md R118, R119): at every place of the fixed
program, the rest of the current bit's pulse and then the pulses of the bits below it. A SEQUENCER step moves events
from there to the trace, and the bracket keeps the interrupt mask to restore. -/

namespace Sys2Proof.Machine

/-! The mask as a count of bits: a mask at bit `n` leaves `n + 1` of them, an empty one none. -/

theorem toNat_mask {n : Nat} (bound : n < 24) : (1#24 <<< n).toNat = 2 ^ n := by
  rw [← BitVec.twoPow_eq, BitVec.toNat_twoPow_of_lt bound]

theorem testFlag_mask (color : Color) {n : Nat} (bound : n < 24) : testFlag color (1#24 <<< n) = color.getLsbD n := by
  have set : 1#24 <<< n ≠ 0#24 := fun zero => by
    have := toNat_mask bound
    rw [zero] at this
    exact (Nat.two_pow_pos n).ne this
  rw [← BitVec.twoPow_eq] at set ⊢
  rw [testFlag, BitVec.and_twoPow]
  cases color.getLsbD n <;> simp [set]

/-- The bits from the mask's on are the bit that TST tests and those below it. -/
theorem OneHot.trainBelow_size {m : Color} (one : OneHot m) (unit : Nat) (color : Color) :
    trainBelow unit color m.toNat.size =
      bitPulse unit (testFlag color m) ++ trainBelow unit color (m.toNat.size - 1) := by
  obtain ⟨n, bound, rfl⟩ := one
  rw [toNat_mask bound, Nat.size_pow, testFlag_mask color bound]
  rfl

/-- SHR leaves one bit fewer. -/
theorem OneHot.size_shiftMask {m : Color} (one : OneHot m) : (Machine.shiftMask m).toNat.size = m.toNat.size - 1 := by
  obtain ⟨n, bound, rfl⟩ := one
  rw [Machine.shiftMask, BitVec.toNat_ushiftRight, toNat_mask bound, Nat.size_pow]
  cases n with
  | zero => rfl
  | succ n => rw [Nat.shiftRight_one, Nat.pow_succ, Nat.mul_div_cancel _ (by decide), Nat.size_pow]; rfl

/-! What is still to be emitted, and restored, at each index of the program. -/

/-- The end of a pulse from its PINLO on. -/
def lowHold (units : Nat) : List Event := .pin false :: List.replicate (units * Config.unitNops) .slot

/-- The events still to come of the pulse of the current bit: from TST to PINHI the whole pulse, as TST decides. -/
def pulseAt (i : Nat) (s : State) : List Event :=
  match i with
  | 2 => bitPulse Config.unitNops (testFlag s.c s.m)
  | 3 => bitPulse Config.unitNops s.t
  | 4 => bitPulse Config.unitNops true
  | 5 => List.replicate (slotsLeft s) .slot ++ lowHold Config.k1l
  | 6 => lowHold Config.k1l
  | 7 => List.replicate (slotsLeft s) .slot
  | 9 => bitPulse Config.unitNops false
  | 10 => List.replicate (slotsLeft s) .slot ++ lowHold Config.k0l
  | 11 => lowHold Config.k0l
  | 12 => List.replicate (slotsLeft s) .slot
  | _ => []

/-- The bits whose pulses follow, as the mask has them: before SHR it is still at the current bit. -/
def bitsAt (i : Nat) (m : Color) : Nat :=
  match i with
  | 0 | 1 => 24
  | 14 => m.toNat.size
  | 15 | 16 => 0
  | _ => m.toNat.size - 1

/-- The interrupt mask that the transmission found and leaves: inside the bracket it is saved (R107, R108). -/
def outerMaskAt (i : Nat) (s : State) : Bool :=
  match i with
  | 0 | 16 => s.im
  | _ => s.imsave

/-- The events that a transmission still has to emit. -/
def eventsLeft (s : State) : List Event :=
  pulseAt s.spc.toNat s ++ trainBelow Config.unitNops s.c (bitsAt s.spc.toNat s.m)

/-- The interrupt mask outside the bracket. -/
def outerMask (s : State) : Bool := outerMaskAt s.spc.toNat s

/-- `t` is a later state of the transmission that `s` is in: its events have only moved to the trace. -/
structure Continues (s t : State) : Prop where
  c : t.c = s.c
  commands : t.commands = s.commands
  events : t.trace ++ eventsLeft t = s.trace ++ eventsLeft s
  mask : outerMask t = outerMask s

theorem Continues.trans {s t u : State} (first : Continues s t) (later : Continues t u) : Continues s u where
  c := later.c.trans first.c
  commands := later.commands.trans first.commands
  events := later.events.trans first.events
  mask := later.mask.trans first.mask

/-- What has to be shown of a step from one index to another. -/
theorem Continues.of_places {s t : State} {i j : Nat} (index : s.spc.toNat = i) (target : t.spc.toNat = j)
    (events : t.trace ++ (pulseAt j t ++ trainBelow Config.unitNops t.c (bitsAt j t.m)) =
      s.trace ++ (pulseAt i s ++ trainBelow Config.unitNops s.c (bitsAt i s.m)))
    (mask : outerMaskAt j t = outerMaskAt i s)
    (c : t.c = s.c := by rfl) (commands : t.commands = s.commands := by rfl) : Continues s t := by
  subst i j
  exact ⟨c, commands, events, mask⟩

/-! A step through the program. -/

/-- The four indices of the listing at which a UDELAY stands. -/
theorem index_of_udelay {i : Nat} (units : unitsAtIndex i ≠ 0) : i = 5 ∨ i = 7 ∨ i = 10 ∨ i = 12 := by
  by_contra other
  exact units (by simp only [unitsAtIndex]; (repeat' split) <;> omega)

/-- The slots of a UDELAY come before the events of the next index, which are the same in every state. -/
theorem pulseAt_udelay {i : Nat} (units : unitsAtIndex i ≠ 0) (s t : State) :
    pulseAt i s = List.replicate (slotsLeft s) .slot ++ pulseAt (i + 1) t := by
  rcases index_of_udelay units with rfl | rfl | rfl | rfl
  · rfl
  · exact (List.append_nil _).symm
  · rfl
  · exact (List.append_nil _).symm

/-- A UDELAY and the next index stand inside the bracket, and before SHR. -/
theorem bitsAt_outerMaskAt_udelay {i : Nat} (units : unitsAtIndex i ≠ 0) :
    bitsAt (i + 1) = bitsAt i ∧ outerMaskAt i = State.imsave ∧ outerMaskAt (i + 1) = State.imsave := by
  rcases index_of_udelay units with rfl | rfl | rfl | rfl <;> exact ⟨rfl, rfl, rfl⟩

/-- The UDELAY moves one slot to the trace: its last one, and the program goes on, or one of more. -/
theorem Continues.of_slot {s t : State} (units : unitsAtIndex s.spc.toNat ≠ 0)
    (slot : slotsLeft s = 1 ∧ t.spc.toNat = s.spc.toNat + 1 ∨
      slotsLeft s = slotsLeft t + 1 ∧ t.spc.toNat = s.spc.toNat)
    (trace : t.trace = s.trace ++ [.slot] := by rfl) (m : t.m = s.m := by rfl)
    (imsave : t.imsave = s.imsave := by rfl) (c : t.c = s.c := by rfl)
    (commands : t.commands = s.commands := by rfl) : Continues s t := by
  obtain ⟨bits, inside, inside'⟩ := bitsAt_outerMaskAt_udelay units
  have pulse := pulseAt_udelay units s t
  rcases slot with ⟨last, target⟩ | ⟨more, target⟩
  · refine .of_places rfl target ?_ (by rw [inside, inside', imsave]) c commands
    simp [trace, pulse, bits, last, c, m]
  · refine .of_places rfl target ?_ (by rw [inside, imsave]) c commands
    simp [trace, pulse, pulseAt_udelay units t t, more, List.replicate_succ, c, m]

/-- A step of a UDELAY. -/
theorem InProgram.delayStep_continues {s : State} (place : InProgram s) (units : unitsAtIndex s.spc.toNat ≠ 0) :
    Continues s (delayStep (unitsAtIndex s.spc.toNat * Config.unitNops) s) := by
  rcases delayStep_cases (unitsAtIndex s.spc.toNat * Config.unitNops) s with
    ⟨zero, -⟩ | ⟨-, last, e⟩ | ⟨slots, more, e⟩
  · exact absurd zero (Nat.mul_ne_zero units (Nat.ne_of_gt Config.unitNops_pos))
  · rw [e]
    exact .of_slot units (.inl ⟨last, toNat_succ place.indexBound⟩)
  · have left : slotsLeft s = if s.dly = 0 then unitsAtIndex s.spc.toNat * Config.unitNops else s.dly := rfl
    have pos : slotsLeft s ≠ 0 := by
      rw [left]; split <;> assumption
    rw [← left] at more e
    have busy : slotsLeft s - 1 ≠ 0 := by omega
    have fewer : slotsLeft { emit .slot s with dly := slotsLeft s - 1 } = slotsLeft s - 1 := if_neg busy
    rw [e]
    exact .of_slot units (.inr ⟨by rw [fewer]; omega, rfl⟩)

/-- A UDELAY that has not begun has all its slots left. -/
theorem slotsLeft_of_rest {s : State} {i : Nat} (rest : s.dly = 0) (index : s.spc.toNat = i) :
    slotsLeft s = unitsAtIndex i * Config.unitNops := by
  rw [slotsLeft, if_pos rest, index]

/-- From every place but RET, the program's operation continues the transmission. -/
theorem InProgram.exec_listing_continues {s t : State} (place : InProgram s) (noRet : s.spc.toNat ≠ 16)
    (h : exec (listingAt s.spc.toNat) s = .next t) : Continues s t := by
  have bound := place.indexBound
  have next := toNat_succ bound
  have one := place.oneHot
  have still := place.rest
  have mask := place.mask
  have delay := place.delayStep_continues
  generalize index : s.spc.toNat = i at *
  interval_cases i <;> cases h
  -- Index 0: IRQSAVE.
  · exact .of_places index next rfl rfl
  -- Index 1: LDMASK.
  · have loaded : OneHot Config.msbMask := ⟨23, by decide, by decide⟩
    have size : Config.msbMask.toNat.size = 24 := Nat.size_pow (n := 23)
    have first := loaded.trainBelow_size Config.unitNops s.c
    rw [size] at first
    exact .of_places index next (by simp [pulseAt, bitsAt, size, first]) rfl
  -- Index 2: TST.
  · exact .of_places index next rfl rfl
  -- Index 3: BF.
  · cases flag : s.t
    · exact .of_places index (j := 9) rfl (by simp [pulseAt, bitsAt, flag]) rfl
    · exact .of_places index next (by simp [pulseAt, bitsAt, flag]) rfl
  -- Index 4: PINHI.
  · have slots := slotsLeft_of_rest (s := advance (drivePin true s)) (still rfl) next
    exact .of_places index next (by simp [pulseAt, bitsAt, bitPulse, pulse, lowHold, slots, unitsAtIndex]) rfl
  -- Index 5: UDELAY, the long high hold.
  · exact delay (by decide)
  -- Index 6: PINLO.
  · have slots := slotsLeft_of_rest (s := advance (drivePin false s)) (still rfl) next
    exact .of_places index next (by simp [pulseAt, bitsAt, lowHold, slots, unitsAtIndex]) rfl
  -- Index 7: UDELAY, the short low hold.
  · exact delay (by decide)
  -- Index 8: B.
  · exact .of_places index (j := 13) rfl rfl rfl
  -- Index 9: PINHI.
  · have slots := slotsLeft_of_rest (s := advance (drivePin true s)) (still rfl) next
    exact .of_places index next (by simp [pulseAt, bitsAt, bitPulse, pulse, lowHold, slots, unitsAtIndex]) rfl
  -- Index 10: UDELAY, the short high hold.
  · exact delay (by decide)
  -- Index 11: PINLO.
  · have slots := slotsLeft_of_rest (s := advance (drivePin false s)) (still rfl) next
    exact .of_places index next (by simp [pulseAt, bitsAt, lowHold, slots, unitsAtIndex]) rfl
  -- Index 12: UDELAY, the long low hold.
  · exact delay (by decide)
  -- Index 13: SHR.
  · have shifted := (one (by decide) (by decide)).size_shiftMask
    exact .of_places index next (by simp [pulseAt, bitsAt, shifted]) rfl
  -- Index 14: BNZ.
  · by_cases empty : s.m = 0#24
    · simp only [empty, if_true]
      exact .of_places index next (by simp [pulseAt, bitsAt, empty]) rfl
    · have one := (mask (by decide) (by decide)).resolve_right (fun h => empty h.2)
      simp only [empty, if_false]
      exact .of_places index (j := 2) rfl (by simp [pulseAt, bitsAt, one.trainBelow_size]) rfl
  -- Index 15: IRQREST.
  · exact .of_places index next rfl rfl
  -- Index 16: RET.
  · exact absurd rfl noRet

end Sys2Proof.Machine
end

section
/-! SUPPORT. Every transmission ends with its whole train emitted (spec/41_sequencer.md R119, R120; R63): each step
continues it and lowers what is left of it and of the turns of others, until RET ends it. -/

namespace Sys2Proof.Machine

/-- A transmission runs, at a place of the fixed program. -/
structure Sending (s : State) : Prop extends InProgram s where
  active : s.sact = true
  romIsListing : s.rom = []

/-- `t` is the state after the transmission that `s` is in: everything left has been emitted. -/
structure Ends (s t : State) : Prop where
  inactive : t.sact = false
  thread : t.hact = false
  im : t.im = outerMask s
  c : t.c = s.c
  commands : t.commands = s.commands
  trace : t.trace = s.trace ++ eventsLeft s

/-- The end of a later state of a transmission is the end of it. -/
theorem Continues.ends {s t u : State} (first : Continues s t) (later : Ends t u) : Ends s u where
  inactive := later.inactive
  thread := later.thread
  im := later.im.trans first.mask
  c := later.c.trans first.c
  commands := later.commands.trans first.commands
  trace := later.trace.trans first.events

/-! Turns and ticks touch nothing of a transmission. -/

theorem afterTurn_eq (s : State) :
    ∃ turns draws spent, afterTurn s = { s with turns := turns, draws := draws, spent := spent } := by
  unfold afterTurn
  split
  · exact ⟨_, _, _, rfl⟩
  · obtain ⟨draws, spent, e⟩ := afterFreeTurn_eq s
    exact ⟨_, draws, spent, e⟩

theorem counterStep_eq (s : State) :
    ∃ count mcf ovf, counterStep s = { s with count := count, mcf := mcf, ovf := ovf } := by
  unfold counterStep
  rcases tick_cases Config.periodTicks Config.shortTicks s with ⟨-, e⟩ | ⟨-, -, e⟩ | ⟨-, -, e⟩ <;>
    exact ⟨_, _, _, e⟩

theorem Sending.afterTurn {s : State} (sending : Sending s) :
    Sending (afterTurn s) ∧ Continues s (afterTurn s) := by
  obtain ⟨turns, draws, spent, e⟩ := afterTurn_eq s
  rw [e]
  exact ⟨{ sending with }, rfl, rfl, rfl, rfl⟩

theorem Sending.counterStep {s : State} (sending : Sending s) :
    Sending (counterStep s) ∧ Continues s (counterStep s) := by
  obtain ⟨count, mcf, ovf, e⟩ := counterStep_eq s
  rw [e]
  exact ⟨{ sending with }, rfl, rfl, rfl, rfl⟩

/-- What SEQUENCER does while a transmission runs: RET ends it, any other operation continues it. -/
theorem Sending.sequencerStep_cases {s : State} (sending : Sending s) :
    ∃ t, sequencerStep s = .next t ∧ (Ends s t ∨ Sending t ∧ Continues s t ∧ stepsLeft t < stepsLeft s) := by
  have place := sending.toInProgram
  rw [sequencerStep_listing sending.romIsListing place.indexBound]
  by_cases ret : s.spc.toNat = 16
  · have emitted : eventsLeft s = [] := by simp [eventsLeft, ret, pulseAt, bitsAt, trainBelow]
    have outside : outerMask s = s.im := by simp [outerMask, ret, outerMaskAt]
    rw [ret]
    exact ⟨_, rfl, .inl ⟨rfl, endTransmission_hact s, outside.symm, rfl, rfl, by simp [emitted]⟩⟩
  · obtain ⟨t, e, further⟩ := place.exec_listing sending.active ret
    have rom := exec_sequencer_rom (isCommand_listingAt _) e
    exact ⟨t, e, .inr ⟨⟨further.toInProgram, further.active, rom.trans sending.romIsListing⟩,
      place.exec_listing_continues ret e, further.nearer⟩⟩

/-! How many turns the transmission may still take. -/

/-- What every step of a transmission lowers: the listed turns; then the steps to its end; then, while COUNTER has the
free turns, the rest of its burst. -/
def turnsLeft (s : State) : ℕ ×ₗ (ℕ ×ₗ ℕ ×ₗ ℕ) ×ₗ ℕ ×ₗ ℕ :=
  toLex (s.turns.length, toLex (stepsLeft s,
    toLex ((counterBurst s.draws).toNat, Config.freeBurst s.draws - s.spent)))

/-- A step of a transmission lowers it: SEQUENCER's own, or COUNTER's turn. -/
theorem turnsLeft_lt {s t : State} (active : s.sact = true) (h : step s = .next t)
    (nearer : stepsLeft t < stepsLeft s ∨ stepsLeft t = stepsLeft s ∧ currentTurn s = .counter) :
    turnsLeft t < turnsLeft s := by
  obtain ⟨turns, draws, spent⟩ := step_turns h
  cases listed : s.turns with
  | cons turn rest =>
    obtain ⟨-, later⟩ := turn_cons listed
    rw [later] at turns
    exact Prod.Lex.toLex_lt_toLex.2 (.inl (by simp [turns, listed]))
  | nil =>
    have later : afterTurn s = afterFreeTurn s := by simp only [afterTurn, listed]
    rw [later] at turns draws spent
    refine Prod.Lex.toLex_lt_toLex.2 (.inr ⟨by simp [turns], Prod.Lex.toLex_lt_toLex.2 ?_⟩)
    refine nearer.imp_right fun ⟨same, counter⟩ => ⟨same, Prod.Lex.toLex_lt_toLex.2 ?_⟩
    have burst : counterBurst s.draws = true := by
      simpa [currentTurn, listed, freeTurn_of_active active] using counter
    by_cases more : s.spent < Config.freeBurst s.draws
    · rw [afterFreeTurn, if_pos more] at draws spent
      exact .inr ⟨by rw [draws], by simp only [draws, spent]; omega⟩
    · rw [afterFreeTurn, if_neg more] at draws
      exact .inl (by simp [draws, counterBurst_succ, burst])

/-- A step of a transmission ends it or continues it with fewer turns left. -/
theorem Sending.exists_step {s : State} (sending : Sending s) (turn : currentTurn s ≠ .reset) :
    ∃ t, step s = .next t ∧ (Ends s t ∨ Sending t ∧ Continues s t ∧ turnsLeft t < turnsLeft s) := by
  obtain ⟨taken, passed⟩ := sending.afterTurn
  rcases turn_cases s with reset | ⟨counter, armed⟩ | side
  · exact absurd reset turn
  · obtain ⟨ticked, passed'⟩ := taken.counterStep
    have e := step_counter counter armed
    have same := (stepsLeft_counterStep (Machine.afterTurn s)).trans (stepsLeft_afterTurn s)
    exact ⟨_, e, .inr ⟨ticked, passed.trans passed', turnsLeft_lt sending.active e (.inr ⟨same, counter⟩)⟩⟩
  · obtain ⟨t, e, last | ⟨sending', later, nearer⟩⟩ := taken.sequencerStep_cases
    · exact ⟨t, (step_sequencer side sending.active).trans e, .inl (passed.ends last)⟩
    · have e := (step_sequencer side sending.active).trans e
      rw [stepsLeft_afterTurn] at nearer
      exact ⟨t, e, .inr ⟨sending', passed.trans later, turnsLeft_lt sending.active e (.inl nearer)⟩⟩

/-- One step more in front of a run whose states before its end are active. -/
theorem active_before_succ {s t : State} {n : Nat} (active : s.sact = true) (first : step s = .next t)
    (later : ∀ m u, m < n → runSteps m t = .next u → u.sact = true) :
    ∀ m u, m < n + 1 → runSteps m s = .next u → u.sact = true := by
  intro m u before run
  cases m with
  | zero => cases run; exact active
  | succ m =>
    rw [runSteps_succ m first] at run
    exact later m u (by omega) run

/-- From whatever place of the program a transmission is at, it ends, and not before everything left is emitted: by
induction on the turns left. -/
theorem Sending.exists_end {s : State} (sending : Sending s) (noReset : .reset ∉ s.turns) :
    ∃ n t, runSteps n s = .next t ∧ Ends s t ∧ ∀ m u, m < n → runSteps m s = .next u → u.sact = true := by
  induction left : turnsLeft s using WellFoundedLT.induction generalizing s with
  | ind _ ih =>
    subst left
    obtain ⟨t, first, last | ⟨sending', continues, fewer⟩⟩ := sending.exists_step (currentTurn_ne_reset noReset)
    · exact ⟨1, t, (runSteps_one s).trans first, last,
        active_before_succ (n := 0) sending.active first (fun m u before => absurd before (Nat.not_lt_zero m))⟩
    · obtain ⟨n, u, run, last, before⟩ := ih _ fewer sending' (step_reset_notMem first noReset) rfl
      exact ⟨n + 1, u, (runSteps_succ n first).trans run, continues.ends last,
        active_before_succ sending.active first before⟩

/-- Settles O56: after `StartTx` the whole train is left, and the interrupt mask outside the bracket is `IM`. -/
theorem everyTransmissionEnds : Obligations.EveryTransmissionEnds := by
  intro s rom active spc dly pin noReset
  have sending : Sending s := {
    indexBound := by simp [spc]
    mask := by simp [spc]
    masked := by simp [spc]
    pin := by simp [spc, pin, pinAtIndex]
    delay := fun busy => absurd dly busy
    active := active
    romIsListing := rom }
  have whole : eventsLeft s = train Config.unitNops s.c := by simp [eventsLeft, spc, pulseAt, bitsAt, train]
  have mask : outerMask s = s.im := by simp [outerMask, spc, outerMaskAt]
  obtain ⟨n, t, run, last, before⟩ := sending.exists_end noReset
  exact ⟨n, t, run, last.inactive, last.thread, last.im.trans mask, last.c, last.commands,
    whole ▸ last.trace, before⟩

end Sys2Proof.Machine
end

section
/-! SUPPORT. Encoding and decoding undo one another (spec/30_encoding.md R71 to R77): the word of an operation decodes
to it, or is a branch to no ROM index, and the words of a row of the opcode map are the words of its operations. -/

namespace Sys2Proof

/-! What the decoder reads in the word of an operation, for each operand form. -/

theorem ok_colorField_encodeColor (f : Color → Instr) (op : BitVec 8) (color : Color) :
    (.ok (f (colorField (encodeColor op color))) : Except DecodeError Instr) = .ok (f color) := by
  rw [encodeColor, colorField_formatW]

theorem decodeBare_encodeBare (i : Instr) (op : BitVec 8) : decodeBare i (encodeBare op) = .ok i :=
  if_pos (low24_formatW op 0#24)

theorem decodeUnits_encodeUnits (f : Units → Instr) (op : BitVec 8) (k : Units) :
    decodeUnits f (encodeUnits op k) = .ok (f k) := by
  simp only [decodeUnits, encodeUnits, unitsZero_formatW, unitsField_formatW, if_true]

theorem decodeTarget_encodeTarget (f : Index → Instr) (op : BitVec 8) (target : Index) :
    decodeTarget f (encodeTarget op target) =
      if targetLegal target then .ok (f target)
      else .error (.reservedTarget (targetField (encodeTarget op target))) := by
  simp only [decodeTarget, encodeTarget, targetZero_formatW, targetField_formatW, if_true]

/-- The word of an operation decodes to it where the operation is well-formed; where it is not, the word is refused
for its target (R77). -/
theorem decode_encode (i : Instr) :
    decode (encode i) = if i.WellFormed then .ok i else .error (.reservedTarget (targetField (encode i))) := by
  cases i with
  | start color => exact (decode_start _ (opField_formatW ..)).trans (ok_colorField_encodeColor ..)
  | setIdle color => exact (decode_setIdle _ (opField_formatW ..)).trans (ok_colorField_encodeColor ..)
  | transmit color => exact (decode_transmit _ (opField_formatW ..)).trans (ok_colorField_encodeColor ..)
  | nop => exact (decode_nop _ (opField_formatW ..)).trans (decodeBare_encodeBare ..)
  | udelay k => exact (decode_udelay _ (opField_formatW ..)).trans (decodeUnits_encodeUnits ..)
  | pinHi => exact (decode_pinHi _ (opField_formatW ..)).trans (decodeBare_encodeBare ..)
  | pinLo => exact (decode_pinLo _ (opField_formatW ..)).trans (decodeBare_encodeBare ..)
  | irqSave => exact (decode_irqSave _ (opField_formatW ..)).trans (decodeBare_encodeBare ..)
  | irqRest => exact (decode_irqRest _ (opField_formatW ..)).trans (decodeBare_encodeBare ..)
  | ldMask => exact (decode_ldMask _ (opField_formatW ..)).trans (decodeBare_encodeBare ..)
  | tst => exact (decode_tst _ (opField_formatW ..)).trans (decodeBare_encodeBare ..)
  | shr => exact (decode_shr _ (opField_formatW ..)).trans (decodeBare_encodeBare ..)
  | b target => exact (decode_b _ (opField_formatW ..)).trans (decodeTarget_encodeTarget ..)
  | bf target => exact (decode_bf _ (opField_formatW ..)).trans (decodeTarget_encodeTarget ..)
  | bnz target => exact (decode_bnz _ (opField_formatW ..)).trans (decodeTarget_encodeTarget ..)
  | ret => exact (decode_ret _ (opField_formatW ..)).trans (decodeBare_encodeBare ..)

/-- Settles O1: of the two cases of `decode_encode`, the well-formed one. -/
theorem decodeOfEncode : Obligations.DecodeOfEncode :=
  fun i legal => (decode_encode i).trans (if_pos legal)

/-- Settles O2: the word is its operation's, which the decoder gives back only where it is well-formed. -/
theorem encodeOfDecode : Obligations.EncodeOfDecode := by
  intro w i decoded
  have word : encode i = w := encode_of_decode decoded
  refine ⟨word, ?_⟩
  by_contra illegal
  rw [← word, decode_encode, if_neg illegal] at decoded
  cases decoded

/-- Settles O7: each word is the word of its operation, which is well-formed. -/
theorem sampleWordsDecode : Obligations.SampleWordsDecode :=
  ⟨decodeOfEncode (.start 0x00FF00#24) rfl, decodeOfEncode (.setIdle 0x00FF00#24) rfl,
    decodeOfEncode (.transmit 0x800000#24) rfl, decodeOfEncode .nop rfl, decodeOfEncode (.udelay 14#8) rfl,
    decodeOfEncode .pinHi rfl, decodeOfEncode .pinLo rfl, decodeOfEncode .irqSave rfl, decodeOfEncode .irqRest rfl,
    decodeOfEncode .ldMask rfl, decodeOfEncode .tst rfl, decodeOfEncode .shr rfl, decodeOfEncode (.b 13#5) rfl,
    decodeOfEncode (.bf 9#5) rfl, decodeOfEncode (.bnz 2#5) rfl, decodeOfEncode .ret rfl⟩

end Sys2Proof
end

section
/-! SUPPORT. The rows of the opcode map (spec/30_encoding.md R73): a word in a row is the word of an operation of that
row, and its opcode is the row's. -/

namespace Sys2Proof

open Laws.RowMatch (Statement and_formatW)

/-! A word from the mask and the pattern of its row, for each operand form. -/

/-- The `op` of a word in a row is the row's, and its low bits meet the rest of the mask nowhere. -/
theorem fields_of_row {w : Word} {op : BitVec 8} {mask : BitVec 24}
    (row : w &&& formatW 0xFF#8 mask = formatW op 0#24) :
    opField w = op ∧ w.extractLsb' 0 24 &&& mask = 0#24 := by
  rw [← formatW_fields w, and_formatW] at row
  have high := congrArg opField row
  have low := congrArg (·.extractLsb' 0 24) row
  simp only [opField_formatW, low24_formatW] at high low
  exact ⟨BitVec.and_allOnes.symm.trans high, low⟩

/-- The bits of a word that a mask of its low bits admits. -/
theorem getLsbD_of_and_mask {w : Word} {mask : BitVec 24} (low : w.extractLsb' 0 24 &&& mask = 0#24) {i : Nat}
    (bound : i < 24) (masked : mask.getLsbD i = true) : w.getLsbD i = false := by
  have bit := congrArg (·.getLsbD i) low
  simpa only [BitVec.getLsbD_and, masked, Bool.and_true, BitVec.getLsbD_extractLsb', bound, decide_true, Bool.true_and,
    Nat.zero_add, BitVec.getLsbD_zero] using bit

theorem encodeColor_of_row {w : Word} {op : BitVec 8} (row : w &&& formatW 0xFF#8 0#24 = formatW op 0#24) :
    encodeColor op (colorField w) = w :=
  encodeColor_colorField (fields_of_row row).1

theorem encodeBare_of_row {w : Word} {op : BitVec 8} (row : w &&& formatW 0xFF#8 0xFFFFFF#24 = formatW op 0#24) :
    encodeBare op = w := by
  obtain ⟨opcode, low⟩ := fields_of_row row
  have zero : w.extractLsb' 0 24 = 0#24 := BitVec.and_allOnes.symm.trans low
  rw [encodeBare, ← zero, ← opcode, formatW_fields]

theorem encodeUnits_of_row {w : Word} {op : BitVec 8} (row : w &&& formatW 0xFF#8 0xFFFF00#24 = formatW op 0#24) :
    encodeUnits op (unitsField w) = w := by
  obtain ⟨opcode, low⟩ := fields_of_row row
  have masked : ∀ i, i < 16 → (0xFFFF00#24).getLsbD (8 + i) = true := by decide
  have zero : w.extractLsb' 8 16 = 0#16 := by
    apply BitVec.eq_of_getLsbD_eq
    intro i bound
    simp [bound, getLsbD_of_and_mask low (by omega) (masked i bound)]
  rw [encodeUnits, zeroExtend_units w zero, ← opcode, formatW_fields]

theorem encodeTarget_of_row {w : Word} {op : BitVec 8} (row : w &&& formatW 0xFF#8 0xFFFFE0#24 = formatW op 0#24) :
    encodeTarget op (targetField w) = w := by
  obtain ⟨opcode, low⟩ := fields_of_row row
  have masked : ∀ i, i < 19 → (0xFFFFE0#24).getLsbD (5 + i) = true := by decide
  have zero : w.extractLsb' 5 19 = 0#19 := by
    apply BitVec.eq_of_getLsbD_eq
    intro i bound
    simp [bound, getLsbD_of_and_mask low (by omega) (masked i bound)]
  rw [encodeTarget, zeroExtend_target w zero, ← opcode, formatW_fields]

/-! The rows and the operations. -/

theorem row_mem (i : Instr) : i.row ∈ opcodeMap := by
  have bound : i.rowIndex < 16 := by cases i <;> simp [Instr.rowIndex]
  rw [Instr.row, List.getD_eq_getElem _ _ bound]
  exact List.getElem_mem bound

/-- The word of an operation is in the operation's row, whether or not the operation is well-formed. -/
theorem encode_and_mask (i : Instr) : encode i &&& i.row.mask = i.row.pattern := by
  change Statement i
  cases i with
  | start color => exact Laws.RowMatch.start color
  | setIdle color => exact Laws.RowMatch.setIdle color
  | transmit color => exact Laws.RowMatch.transmit color
  | udelay k => exact Laws.RowMatch.udelay k
  | b target => exact Laws.RowMatch.b target
  | bf target => exact Laws.RowMatch.bf target
  | bnz target => exact Laws.RowMatch.bnz target
  | nop | pinHi | pinLo | irqSave | irqRest | ldMask | tst | shr | ret => rfl

/-- A word in a row is the word of an operation of the row. -/
theorem exists_encode_of_row {w : Word} {r : OpRow} (mem : r ∈ opcodeMap) (row : w &&& r.mask = r.pattern) :
    ∃ i, i.row = r ∧ encode i = w := by
  simp only [opcodeMap, List.cons_append, List.nil_append, List.mem_cons, List.not_mem_nil, or_false] at mem
  rcases mem with rfl | rfl | rfl | rfl | rfl | rfl | rfl | rfl | rfl | rfl | rfl | rfl | rfl | rfl | rfl | rfl
  · exact ⟨.start (colorField w), rfl, encodeColor_of_row row⟩
  · exact ⟨.setIdle (colorField w), rfl, encodeColor_of_row row⟩
  · exact ⟨.transmit (colorField w), rfl, encodeColor_of_row row⟩
  · exact ⟨.nop, rfl, encodeBare_of_row row⟩
  · exact ⟨.udelay (unitsField w), rfl, encodeUnits_of_row row⟩
  · exact ⟨.pinHi, rfl, encodeBare_of_row row⟩
  · exact ⟨.pinLo, rfl, encodeBare_of_row row⟩
  · exact ⟨.irqSave, rfl, encodeBare_of_row row⟩
  · exact ⟨.irqRest, rfl, encodeBare_of_row row⟩
  · exact ⟨.ldMask, rfl, encodeBare_of_row row⟩
  · exact ⟨.tst, rfl, encodeBare_of_row row⟩
  · exact ⟨.shr, rfl, encodeBare_of_row row⟩
  · exact ⟨.b (targetField w), rfl, encodeTarget_of_row row⟩
  · exact ⟨.bf (targetField w), rfl, encodeTarget_of_row row⟩
  · exact ⟨.bnz (targetField w), rfl, encodeTarget_of_row row⟩
  · exact ⟨.ret, rfl, encodeBare_of_row row⟩

/-- No two rows have the same opcode. -/
theorem row_eq_of_opField_pattern :
    ∀ r ∈ opcodeMap, ∀ r' ∈ opcodeMap, opField r.pattern = opField r'.pattern → r = r' := by
  decide

/-- The opcode of a word is that of the row it is in, since every mask keeps it whole. -/
theorem opField_of_row {w : Word} {r : OpRow} (mem : r ∈ opcodeMap) (row : w &&& r.mask = r.pattern) :
    opField w = opField r.pattern := by
  have whole : ∀ r ∈ opcodeMap, opField r.mask = BitVec.allOnes 8 := by decide
  calc opField w = opField w &&& opField r.mask := by rw [whole r mem, BitVec.and_allOnes]
    _ = opField (w &&& r.mask) := BitVec.extractLsb'_and.symm
    _ = opField r.pattern := by rw [row]

/-- An operation that is not well-formed is a branch to no ROM index. -/
theorem branch_of_not_wellFormed {i : Instr} (illegal : ¬ i.WellFormed) :
    i.row.mnemonic ∈ ["B", "BF", "BNZ"] ∧ 16 < (targetField (encode i)).toNat := by
  have high {op : BitVec 8} {target : Index} (illegal : targetLegal target ≠ true) :
      16 < (targetField (encodeTarget op target)).toNat := by
    rw [encodeTarget, targetField_formatW]
    simpa [targetLegal] using illegal
  cases i with
  | b target | bf target | bnz target => exact ⟨by simp [Instr.row, Instr.rowIndex, opcodeMap], high illegal⟩
  | _ => exact absurd rfl illegal

/-- Settles O3: the words of a row are those of its operations, and of these the decoder refuses the branches to no ROM
index only. -/
theorem wordIsItsRowsOperation : Obligations.WordIsItsRowsOperation := by
  refine ⟨fun w i decoded => ⟨row_mem i, encode_of_decode decoded ▸ encode_and_mask i⟩, ?_, ?_⟩
  · intro w r mem row
    obtain ⟨i, rfl, rfl⟩ := exists_encode_of_row mem row
    by_cases legal : i.WellFormed
    · exact .inl ⟨i, (decode_encode i).trans (if_pos legal), rfl⟩
    · obtain ⟨branch, high⟩ := branch_of_not_wellFormed legal
      exact .inr ⟨branch, high, (decode_encode i).trans (if_neg legal)⟩
  · intro w r r' mem mem' row row'
    exact row_eq_of_opField_pattern r mem r' mem' ((opField_of_row mem row).symm.trans (opField_of_row mem' row'))

end Sys2Proof
end

section
/-! SUPPORT. Words that spell no operation in their place, and their refusal (spec/30_encoding.md R74 to R77). -/

namespace Sys2Proof

/-! Decoding by place. -/

theorem decodeCommand_of_decode {w : Word} {i : Instr} (decoded : decode w = .ok i) (command : i.isCommand = true) :
    decodeCommand w = .ok i :=
  onlyClass_ok_iff.2 ⟨decoded, command⟩

/-- Only the words of the three commands are decoded on the command port. -/
theorem opField_of_decodeCommand {w : Word} {i : Instr} (decoded : decodeCommand w = .ok i) :
    opField w ∈ [0x01#8, 0x02#8, 0x03#8] := by
  obtain ⟨decoded, command⟩ := onlyClass_ok_iff.1 decoded
  rw [← encode_of_decode decoded]
  cases i with
  | start color | setIdle color | transmit color => simp [encode, encodeColor]
  | _ => cases command

/-- A word with a command's opcode is that command, whatever its colour (R77). -/
theorem exists_decodeCommand {w : Word} (opcode : opField w ∈ [0x01#8, 0x02#8, 0x03#8]) :
    ∃ i, decodeCommand w = .ok i := by
  simp only [List.mem_cons, List.not_mem_nil, or_false] at opcode
  rcases opcode with op | op | op
  · exact ⟨_, decodeCommand_of_decode (decode_start w op) rfl⟩
  · exact ⟨_, decodeCommand_of_decode (decode_setIdle w op) rfl⟩
  · exact ⟨_, decodeCommand_of_decode (decode_transmit w op) rfl⟩

/-- A word with the opcode of an operation without operand is read as that operation. -/
theorem exists_decodeBare {w : Word}
    (opcode : opField w ∈ [0x10#8, 0x12#8, 0x13#8, 0x14#8, 0x15#8, 0x16#8, 0x17#8, 0x18#8, 0x1C#8]) :
    ∃ i, decode w = decodeBare i w := by
  simp only [List.mem_cons, List.not_mem_nil, or_false] at opcode
  rcases opcode with op | op | op | op | op | op | op | op | op
  · exact ⟨_, decode_nop w op⟩
  · exact ⟨_, decode_pinHi w op⟩
  · exact ⟨_, decode_pinLo w op⟩
  · exact ⟨_, decode_irqSave w op⟩
  · exact ⟨_, decode_irqRest w op⟩
  · exact ⟨_, decode_ldMask w op⟩
  · exact ⟨_, decode_tst w op⟩
  · exact ⟨_, decode_shr w op⟩
  · exact ⟨_, decode_ret w op⟩

/-- A word with a branch's opcode is read as that branch. -/
theorem exists_decodeTarget {w : Word} (opcode : opField w ∈ [0x19#8, 0x1A#8, 0x1B#8]) :
    ∃ f, decode w = decodeTarget f w := by
  simp only [List.mem_cons, List.not_mem_nil, or_false] at opcode
  rcases opcode with op | op | op
  · exact ⟨_, decode_b w op⟩
  · exact ⟨_, decode_bf w op⟩
  · exact ⟨_, decode_bnz w op⟩

end Sys2Proof

namespace Sys2Proof.Machine

/-- At a ready port, HOST steps with its next word (R90). -/
theorem step_host {s : State} {w : Word} {rest : List Word} (side : ProcessorSide s) (ready : hostEnabled s = true)
    (words : s.commands = w :: rest) : step s = hostStep w { afterTurn s with commands := rest } := by
  obtain ⟨inactive, thread, noTake⟩ := (hostEnabled_iff s).1 ready
  have who : stepper s = some .host := by
    rw [stepper_processorSide side]
    simp [processorStepper, sequencerEnabled, inactive, noTake, ready, words]
  obtain ⟨-, w', rest', words', e⟩ := step_of_stepper who
  rw [afterTurn_commands, words] at words'
  cases words'
  exact e

/-- A word that spells no command is refused on the command port. -/
theorem step_host_refused {s : State} {w : Word} {rest : List Word} (side : ProcessorSide s)
    (ready : hostEnabled s = true) (words : s.commands = w :: rest)
    (noCommand : opField w ∉ [0x01#8, 0x02#8, 0x03#8]) : step s = .refused .illegalCommand := by
  rw [step_host side ready words]
  rcases hostStep_cases w { afterTurn s with commands := rest } with ⟨i, decoded, -⟩ | ⟨e, -, refused⟩
  · exact absurd (opField_of_decodeCommand decoded) noCommand
  · exact refused

/-- A word that spells no operation is refused in the ROM. -/
theorem step_sequencer_refused {s : State} {w : Word} (side : ProcessorSide s) (active : s.sact = true)
    (fetched : romRead s s.spc.toNat = some w) (noOperation : ∀ i, decode w ≠ .ok i) :
    step s = .refused .illegalCommand := by
  have read : romRead (afterTurn s) (afterTurn s).spc.toNat = some w := by simpa [romRead] using fetched
  rw [step_sequencer side active]
  rcases sequencerStep_cases (afterTurn s) with ⟨noWord, -⟩ | ⟨w', i, fetched', decoded, -⟩ | ⟨w', e, -, -, refused⟩
  · cases read.symm.trans noWord
  · cases read.symm.trans fetched'
    exact absurd (onlyClass_ok_iff.1 decoded).1 (noOperation i)
  · exact refused

/-- Settles O4: the three command opcodes decode, a word with any other is refused at the port, and the ROM decoder
fails on none of the listing. -/
theorem commandPortDecoding : Obligations.CommandPortDecoding := by
  refine ⟨fun w => ⟨fun op => ?_, fun op => ?_, fun op => ?_⟩, ?_, fun n bound => ⟨_, decodeRom_listing n bound⟩, ?_⟩
  · exact decodeCommand_of_decode (decode_start w op) rfl
  · exact decodeCommand_of_decode (decode_setIdle w op) rfl
  · exact decodeCommand_of_decode (decode_transmit w op) rfl
  · intro w rest s side ready words noStart noSetIdle noTransmit
    refine step_host_refused side ready words ?_
    simp only [List.mem_cons, List.not_mem_nil, or_false, not_or]
    exact ⟨noStart, noSetIdle, noTransmit⟩
  · exact fun w s => step_sequencer_refused

/-- Settles O5: the ranges of R76 hold no opcode of the map, and past 0x03 there is no command. -/
theorem reservedOpcodesAreRefused : Obligations.ReservedOpcodesAreRefused := by
  constructor
  · intro w reserved
    have mapped : ∀ op ∈ mappedOps, 0x01 ≤ op.toNat ∧ op.toNat ≤ 0x03 ∨ 0x10 ≤ op.toNat ∧ op.toNat ≤ 0x1C := by decide
    refine decode_reserved w fun mem => ?_
    have range := mapped _ mem
    unfold opField at range
    omega
  · intro w rest s side ready words noCommand
    have commands : ∀ op ∈ [0x01#8, 0x02#8, 0x03#8], 0x01 ≤ op.toNat ∧ op.toNat ≤ 0x03 := by decide
    refine step_host_refused side ready words fun mem => ?_
    have range := commands _ mem
    unfold opField at range
    omega

/-- Settles O6: the decoder asks of each operand form that the bits are zero and the target is a ROM index. -/
theorem reservedOperandBitsAreRefused : Obligations.ReservedOperandBitsAreRefused := by
  refine ⟨?_, fun op color command => exists_decodeCommand ((opField_formatW op color).symm ▸ command),
    fun n bound => ⟨_, decodeRom_listing n bound⟩⟩
  intro w s side active fetched reserved
  refine step_sequencer_refused side active fetched fun i decoded => ?_
  rcases reserved with ⟨opcode, bits⟩ | ⟨opcode, bits⟩ | ⟨opcode, bits⟩
  · obtain ⟨j, row⟩ := exists_decodeBare opcode
    exact bits (decodeBare_ok (row.symm.trans decoded)).1
  · exact bits (decodeUnits_ok ((decode_udelay w opcode).symm.trans decoded)).1
  · obtain ⟨f, row⟩ := exists_decodeTarget opcode
    obtain ⟨zero, legal, -⟩ := decodeTarget_ok (row.symm.trans decoded)
    have index : (w.extractLsb' 0 5).toNat ≤ 16 := of_decide_eq_true legal
    exact bits.elim (· zero) (fun high => by omega)

end Sys2Proof.Machine
end

section
/-! SUPPORT. Placing an operation (assumption 6): its word is on the command port or in the ROM, where the next step
finds and performs it. -/

namespace Sys2Proof.Machine

@[simp] theorem wordOfBits_toNat (w : Word) : wordOfBits 32 w.toNat = w := by
  rw [wordOfBits, Nat.mod_eq_of_lt w.isLt, BitVec.ofNat_toNat, BitVec.setWidth_eq]

/-! Which place a well-formed operation gets. -/

theorem withFetchWord_command {i : Instr} (s : State) (legal : i.WellFormed) (command : i.isCommand = true) :
    s.withFetchWord 32 (encode i).toNat = placeCommand (encode i) s := by
  have decoded : decodeCommand (encode i) = .ok i := decodeCommand_of_decode (decodeOfEncode i legal) command
  simp only [State.withFetchWord, wordOfBits_toNat, placeWord, decoded]

theorem withFetchWord_sequencer {i : Instr} (s : State) (legal : i.WellFormed) (sequencer : i.isCommand = false) :
    s.withFetchWord 32 (encode i).toNat = placeRomWord (encode i) s := by
  have wrongPlace : decodeCommand (encode i) = .error .wrongPlace := by
    simp only [decodeCommand, decodeOfEncode i legal, onlyClass, sequencer, Bool.false_eq_true, if_false]
  simp only [State.withFetchWord, wordOfBits_toNat, placeWord, wrongPlace]

/-! What the next step does with a placed word. -/

/-- HOST performs a placed command: the port is ready, since a pending interrupt is masked. -/
theorem step_placeCommand {w : Word} {i : Instr} (s : State) (decoded : decodeCommand w = .ok i) :
    step (placeCommand w s) = exec i { s with sact := false, hact := false, im := s.im || irq s } := by
  have side : ProcessorSide (placeCommand w s) := .inl rfl
  have noTake : takeable (placeCommand w s) = false := by
    change (irq s && !(s.im || irq s) && !false && !false) = false
    cases irq s <;> simp
  have ready : hostEnabled (placeCommand w s) = true := (hostEnabled_iff _).2 ⟨rfl, rfl, noTake⟩
  rw [step_host side ready rfl, hostStep, decoded]
  rfl

/-- The index `placeRomWord` places a word at. -/
def placeIndex (s : State) : Index := if targetLegal s.spc then s.spc else 0#5

theorem placeIndex_le (s : State) : (placeIndex s).toNat ≤ 16 := by
  unfold placeIndex
  split
  · exact of_decide_eq_true ‹_›
  · decide

theorem placeIndex_of_le {s : State} (index : s.spc.toNat ≤ 16) : placeIndex s = s.spc :=
  if_pos (decide_eq_true index)

/-- `s` with a word in its ROM at `placeIndex`, where the sequencer stands. -/
def withRomWord (w : Word) (s : State) : State :=
  { s with sact := true, spc := placeIndex s, rom := writeCell s.rom (placeIndex s).toNat w }

theorem placeRomWord_eq (w : Word) (s : State) :
    placeRomWord w s = { withRomWord w s with turns := .processor :: s.turns } :=
  if_pos (show (placeIndex s).toNat < Config.romLen from Nat.lt_succ_of_le (placeIndex_le s))

theorem readCell_withRomWord (w : Word) {s : State} (wf : Memory.wf s.rom = true) :
    readCell (withRomWord w s).rom (placeIndex s).toNat = w :=
  (readCell_writeCell wf).trans (if_pos rfl)

theorem romRead_withRomWord (w : Word) {s : State} (wf : Memory.wf s.rom = true) :
    romRead (withRomWord w s) (withRomWord w s).spc.toNat = some w :=
  (if_pos (Nat.lt_succ_of_le (placeIndex_le s))).trans (congrArg some (readCell_withRomWord w wf))

/-- SEQUENCER performs a placed ROM word. -/
theorem step_placeRomWord {w : Word} {i : Instr} {s : State} (wf : Memory.wf s.rom = true)
    (decoded : decodeRom w = .ok i) : step (placeRomWord w s) = exec i (withRomWord w s) := by
  have later : afterTurn { withRomWord w s with turns := .processor :: s.turns } = withRomWord w s := rfl
  rw [placeRomWord_eq, step_sequencer (.inl rfl) rfl, later]
  simp only [sequencerStep, romRead_withRomWord w wf, decoded]

/-- Settles O12: an operation's word decodes to it, in the place its class gives it, and the next step is the agent of
that place. -/
theorem placedWordRunsNext : Obligations.PlacedWordRunsNext := by
  intro s i legal wf
  refine ⟨fun command => ?_, fun sequencer => ?_⟩
  · rw [withFetchWord_command s legal command]
    exact step_placeCommand s (decodeCommand_of_decode (decodeOfEncode i legal) command)
  · have decoded : decodeRom (encode i) = .ok i := onlyClass_ok_iff.2 ⟨decodeOfEncode i legal, sequencer⟩
    rw [withFetchWord_sequencer s legal sequencer]
    exact ⟨withRomWord (encode i) s, ⟨placeIndex s, placeIndex_le s, placeIndex_of_le, rfl,
      readCell_withRomWord _ wf⟩, step_placeRomWord wf decoded⟩

end Sys2Proof.Machine
end

section
/-! SUPPORT. Runs of one operation: the slots of a UDELAY and of as many NOPs (spec/30_encoding.md R80,
spec/41_sequencer.md R103, R104). -/

namespace Sys2Proof.Machine

theorem repeatOp_succ {i : Instr} {s t : State} (n : Nat) (first : exec i s = .next t) :
    repeatOp i (n + 1) s = repeatOp i n t := by
  simp only [repeatOp, first]

/-- `s` after `n` slots with `SPC` at `index`. -/
def afterSlots (n : Nat) (index : Index) (s : State) : State :=
  { s with trace := s.trace ++ List.replicate n .slot, spc := index }

theorem afterSlots_emit (n : Nat) (index : Index) (s : State) :
    afterSlots n index (emit .slot s) = afterSlots (n + 1) index s := by
  simp only [afterSlots, emit, List.append_assoc, List.replicate_succ, List.singleton_append]

/-- NOPs spend one slot each and move `SPC` on by one each. -/
theorem repeatOp_nop (n : Nat) (s : State) :
    repeatOp .nop n s = .next (afterSlots n (s.spc + BitVec.ofNat 5 n) s) := by
  induction n generalizing s with
  | zero => simp [repeatOp, afterSlots]
  | succ n ih =>
    have index : s.spc + 1 + BitVec.ofNat 5 n = s.spc + BitVec.ofNat 5 (n + 1) := by bv_omega
    calc repeatOp .nop (n + 1) s
        = repeatOp .nop n (advance (emit .slot s)) := repeatOp_succ n rfl
      _ = .next (afterSlots n (s.spc + 1 + BitVec.ofNat 5 n) (advance (emit .slot s))) := ih _
      _ = .next (afterSlots n (s.spc + 1 + BitVec.ofNat 5 n) (emit .slot s)) := rfl
      _ = .next (afterSlots (n + 1) (s.spc + BitVec.ofNat 5 (n + 1)) s) := by rw [afterSlots_emit, index]

/-- The slots a UDELAY of `n` slots has left, at its start or in its middle (R104). -/
def slotsToSpend (n : Nat) (s : State) : Nat := if s.dly = 0 then n else s.dly

theorem delayStep_last {n : Nat} {s : State} (asks : n ≠ 0) (left : slotsToSpend n s = 1) :
    delayStep n s = advance { emit .slot s with dly := 0 } := by
  unfold slotsToSpend at left
  simp only [delayStep, if_neg asks, left, if_true]

theorem delayStep_more {n m : Nat} {s : State} (asks : n ≠ 0) (left : slotsToSpend n s = m + 2) :
    delayStep n s = { emit .slot s with dly := m + 1 } := by
  unfold slotsToSpend at left
  simp only [delayStep, if_neg asks, left, show m + 2 ≠ 1 by omega, if_false, show m + 2 - 1 = m + 1 from rfl]

/-- A UDELAY spends the slots it has left and then moves `SPC` on by one. -/
theorem repeatOp_udelay {k : Units} {n : Nat} {s : State} (asks : slotCount Config.unitNops k ≠ 0)
    (left : slotsToSpend (slotCount Config.unitNops k) s = n + 1) :
    repeatOp (.udelay k) (n + 1) s = .next (afterSlots (n + 1) (s.spc + 1) { s with dly := 0 }) := by
  induction n generalizing s with
  | zero => exact repeatOp_succ 0 (congrArg Host.Outcome.next (delayStep_last asks left))
  | succ m ih =>
    calc repeatOp (.udelay k) (m + 1 + 1) s
        = repeatOp (.udelay k) (m + 1) { emit .slot s with dly := m + 1 } :=
          repeatOp_succ (m + 1) (congrArg Host.Outcome.next (delayStep_more asks left))
      _ = .next (afterSlots (m + 1) (s.spc + 1) (emit .slot { s with dly := 0 })) :=
          ih (if_neg (Nat.succ_ne_zero m))
      _ = .next (afterSlots (m + 2) (s.spc + 1) { s with dly := 0 }) := by rw [afterSlots_emit]

/-- Settles O19: both leave the slots of the delay and `DLY = 0`. -/
theorem udelayEqualsItsNops : Obligations.UdelayEqualsItsNops := by
  intro k s rest units
  have pos : 0 < k.toNat * Config.unitNops := Nat.mul_pos units Config.unitNops_pos
  obtain ⟨n, slots⟩ := Nat.exists_eq_succ_of_ne_zero pos.ne'
  have left : slotsToSpend (slotCount Config.unitNops k) s = n + 1 := (if_pos rest).trans slots
  have delay := repeatOp_udelay pos.ne' left
  rw [slots]
  refine ⟨_, _, delay, repeatOp_nop (n + 1) s, ?_⟩
  simp only [afterSlots, rest]

end Sys2Proof.Machine
end

section
/-! SUPPORT. The command port and the three commands' whole next states (spec/40_commands.md R90 to R93). -/

namespace Sys2Proof.Machine

/-! The port (R90). -/

theorem hostStep_of_decodeCommand {w : Word} {i : Instr} (s : State) (decoded : decodeCommand w = .ok i) :
    hostStep w s = exec i s := by
  simp only [hostStep, decoded]

/-- Settles O9: HOST is the agent that steps (`step_host`), and its word is decoded. -/
theorem stepRunsHostCommand : Obligations.StepRunsHostCommand := by
  intro s w rest i side ready words decoded
  rw [step_host side ready words, hostStep_of_decodeCommand _ decoded]

/-- The port is not ready while the sequencer or the handler is active or an interrupt waits to be taken (R7). -/
theorem not_hostEnabled_of_busy {s : State} (busy : s.sact = true ∨ s.hact = true ∨ takeable s = true) :
    ¬ hostEnabled s = true := by
  intro ready
  obtain ⟨inactive, thread, noTake⟩ := (hostEnabled_iff s).1 ready
  simp [inactive, thread, noTake] at busy

/-- Settles O10: a word is taken only by a HOST step, and HOST steps only at a ready port. -/
theorem hostWaitsUntilReady : Obligations.HostWaitsUntilReady := by
  intro s t h busy
  have notReady := not_hostEnabled_of_busy busy
  rcases step_cases h with ⟨-, rfl⟩ | ⟨-, rfl⟩ | ⟨-, w, i, -, decoded, e⟩ | ⟨-, rfl⟩ | ⟨ready, -⟩ | ⟨ready, -⟩
  · simp
  · simp
  · obtain ⟨t', e', frame⟩ := exec_sequencer_frame (afterTurn s) (onlyClass_ok_iff.1 decoded).2
    rw [e] at e'; cases e'
    simp only [frame, afterTurn_commands]
  · simp
  · exact absurd ready notReady
  · exact absurd ready notReady

/-! The commands (R91 to R93). -/

/-- A colour's word has no bit that the idle word lacks, so all of it is stored. -/
theorem writeIdle_colorWord (color : Color) (s : State) :
    writeIdle (colorWord color) s = { s with idle := color.zeroExtend 32 } :=
  congrArg (fun idle => { s with idle := idle }) (colorWord_and_idleBits color)

theorem idleColor_of_idle {color : Color} {s : State} (idle : s.idle = color.zeroExtend 32) : idleColor s = color := by
  rw [idleColor_eq, idle]
  exact colorWord_low color

/-- An entry with the short flag set services the short event (R139). -/
theorem interruptEntry_of_mcf {s : State} (mcf : s.mcf = true) :
    interruptEntry s = startTx (idleColor s) { s with hact := true, mcf := false } :=
  if_pos mcf

/-- Settles O13, by the two values of RUN. -/
theorem startArmsTheBlock : Obligations.StartArmsTheBlock := by
  intro color s
  refine ⟨fun unarmed => ?_, fun armed => if_pos armed⟩
  simp only [exec, execStart, unarmed, Bool.false_eq_true, if_false, writeIdle_colorWord]

/-- Settles O14: the word is stored whole, and its colour is what the entry latches. -/
theorem setIdleReplacesTheIdleColour : Obligations.SetIdleReplacesTheIdleColour := by
  intro color s
  refine ⟨congrArg Host.Outcome.next (writeIdle_colorWord color s), fun u idle mcf => ?_⟩
  rw [interruptEntry_of_mcf mcf, startTx_c, idleColor_of_idle idle]

/-- Settles O15, by the two values of PINOE. -/
theorem transmitStartsTheSequencer : Obligations.TransmitStartsTheSequencer := by
  intro color s
  refine ⟨fun output => if_pos output, fun undriven => if_neg ?_⟩
  rw [undriven]
  exact Bool.false_ne_true

end Sys2Proof.Machine
end

section
/-! SUPPORT. The whole next states of the thirteen sequencer operations (spec/41_sequencer.md R103 to R115), and that
none of them reads or writes the scheduler's state (R122). -/

namespace Sys2Proof.Machine

/-! The step of SEQUENCER (R100). -/

theorem sequencerStep_of_decodeRom {s : State} {w : Word} {i : Instr} (fetched : romRead s s.spc.toNat = some w)
    (decoded : decodeRom w = .ok i) : sequencerStep s = exec i s := by
  simp only [sequencerStep, fetched, decoded]

/-- Settles O8: SEQUENCER is the agent that steps, and taking a turn moves neither the ROM nor the index. -/
theorem stepRunsFetchedOperation : Obligations.StepRunsFetchedOperation := by
  refine ⟨fun s w i side active fetched decoded => ?_, fun s turn rest => turn_cons, fun s free => ?_⟩
  · have fetched' : romRead (afterTurn s) (afterTurn s).spc.toNat = some w := by simpa [romRead] using fetched
    rw [step_sequencer side active, sequencerStep_of_decodeRom fetched' decoded]
  · have turn : currentTurn s = freeTurn s := by simp only [currentTurn, free]
    have later : afterTurn s = afterFreeTurn s := by simp only [afterTurn, free]
    rw [turn, later]
    exact ⟨freeTurn_ne_reset s, afterFreeTurn_eq s⟩

/-! The slots: NOP and UDELAY (R103, R104). -/

/-- Settles O16: none of the listing's words has the word of NOP. -/
theorem nopSpendsOneSlot : Obligations.NopSpendsOneSlot :=
  ⟨fun _ => rfl, by decide⟩

/-- A slot of a UDELAY that is not its last. -/
theorem delayStep_of_ne_one {n : Nat} {s : State} (asks : n ≠ 0) (more : slotsToSpend n s ≠ 1) :
    delayStep n s = { emit .slot s with dly := slotsToSpend n s - 1 } := by
  rcases delayStep_cases n s with ⟨zero, -⟩ | ⟨-, last, -⟩ | ⟨-, -, e⟩
  · exact absurd zero asks
  · exact absurd last more
  · exact e

/-- Settles O17: the three cases of the delay step. -/
theorem udelayStepSpendsOneSlot : Obligations.UdelayStepSpendsOneSlot := by
  intro k s
  refine ⟨fun zero => congrArg Host.Outcome.next (if_pos zero), ?_⟩
  rintro asks _ rfl
  exact ⟨fun last => congrArg Host.Outcome.next (delayStep_last asks last),
    fun more => congrArg Host.Outcome.next (delayStep_of_ne_one asks more)⟩

/-- A UDELAY stands at its index, with the rest of its slots in `DLY`, until its last one. -/
theorem repeatOp_udelay_of_lt {k : Units} {n m : Nat} {s : State} (asks : slotCount Config.unitNops k ≠ 0)
    (left : slotsToSpend (slotCount Config.unitNops k) s = n + 1 + (m + 1)) :
    repeatOp (.udelay k) (n + 1) s = .next { afterSlots (n + 1) s.spc s with dly := m + 1 } := by
  induction n generalizing s with
  | zero => exact repeatOp_succ 0 (congrArg Host.Outcome.next (delayStep_more asks (left.trans (by omega))))
  | succ n ih =>
    have first := delayStep_more (m := n + 1 + m) asks (left.trans (by omega))
    calc repeatOp (.udelay k) (n + 1 + 1) s
        = repeatOp (.udelay k) (n + 1) { emit .slot s with dly := n + 1 + m + 1 } :=
          repeatOp_succ (n + 1) (congrArg Host.Outcome.next first)
      _ = .next { afterSlots (n + 1) s.spc (emit .slot s) with dly := m + 1 } :=
          ih (if_neg (Nat.succ_ne_zero _))
      _ = .next { afterSlots (n + 2) s.spc s with dly := m + 1 } := by rw [afterSlots_emit]

theorem slotCount_ne_zero {k : Units} (units : 0 < k.toNat) : slotCount Config.unitNops k ≠ 0 :=
  (Nat.mul_pos units Config.unitNops_pos).ne'

/-- A UDELAY entered with `DLY = 0` and executed as often as it asks for slots spends them and moves on. -/
theorem repeatOp_udelay_all {k : Units} {s : State} (rest : s.dly = 0) (units : 0 < k.toNat) :
    repeatOp (.udelay k) (slotCount Config.unitNops k) s =
      .next (afterSlots (slotCount Config.unitNops k) (s.spc + 1) s) := by
  have asks := slotCount_ne_zero units
  obtain ⟨n, slots⟩ := Nat.exists_eq_succ_of_ne_zero asks
  have all := repeatOp_udelay asks ((if_pos rest).trans slots)
  rw [slots]
  simpa only [← rest] using all

/-- After fewer executions, at least one, it stands and holds the rest. -/
theorem repeatOp_udelay_some {k : Units} {s : State} {n : Nat} (rest : s.dly = 0) (pos : 0 < n)
    (fewer : n < slotCount Config.unitNops k) :
    repeatOp (.udelay k) n s =
      .next { afterSlots n s.spc s with dly := slotCount Config.unitNops k - n } := by
  obtain ⟨n, rfl⟩ := Nat.exists_eq_succ_of_ne_zero pos.ne'
  obtain ⟨m, more⟩ := Nat.exists_eq_add_of_lt fewer
  have left : slotsToSpend (slotCount Config.unitNops k) s = n + 1 + (m + 1) := (if_pos rest).trans more
  have held : slotCount Config.unitNops k - (n + 1) = m + 1 := by omega
  rw [held]
  exact repeatOp_udelay_of_lt (by omega) left

/-- Settles O18: all the executions, and fewer. -/
theorem udelaySpendsExactlyItsSlots : Obligations.UdelaySpendsExactlyItsSlots :=
  fun _ _ rest units =>
    ⟨repeatOp_udelay_all rest units, fun _ pos fewer => repeatOp_udelay_some rest pos fewer⟩

/-! The pin, the bracket, the mask and the test (R105 to R111). -/

/-- Settles O20: neither operation reads the pin. -/
theorem pinWritesAreUnconditional : Obligations.PinWritesAreUnconditional :=
  fun _ => ⟨rfl, rfl⟩

/-- Settles O22: IRQSAVE closes the mask, and IRQREST copies what it finds in IMSAVE. -/
theorem maskBracketSavesAndRestores : Obligations.MaskBracketSavesAndRestores := by
  refine fun s => ⟨rfl, rfl, fun t u v saved => ?_⟩
  cases saved
  refine ⟨by simp [takeable], fun kept restored => ?_⟩
  cases restored
  exact ⟨kept, kept⟩

theorem getLsbD_shiftMask (m : Color) (i : Nat) : (shiftMask m).getLsbD i = m.getLsbD (i + 1) := by
  rw [shiftMask, BitVec.getLsbD_ushiftRight, Nat.add_comm]

/-- Settles O23: the shift bit by bit; past bit 23 the old mask has none. -/
theorem maskIsLoadedAndShifted : Obligations.MaskIsLoadedAndShifted := by
  refine fun s => ⟨rfl, shiftMask s.m, rfl, fun i _ => getLsbD_shiftMask s.m i, ?_, ?_⟩
  · rw [getLsbD_shiftMask]
    exact BitVec.getLsbD_of_ge s.m 24 le_rfl
  · rintro (one | zero)
    · rw [one]; rfl
    · rw [zero]; rfl

/-- Settles O24: an empty mask selects no bit. -/
theorem testReadsTheMaskedBit : Obligations.TestReadsTheMaskedBit := by
  refine fun s => ⟨testFlag s.c s.m, rfl, decide_eq_true_iff, fun i bound mask => ?_, fun empty => ?_⟩
  · rw [mask, testFlag_mask s.c bound]
  · simp [testFlag, empty]

/-! The branches and RET (R112 to R115). -/

theorem exec_bf_taken {s : State} (target : Index) (flag : s.t = false) :
    exec (.bf target) s = .next { s with spc := target } :=
  congrArg Host.Outcome.next (if_neg (by simp [flag]))

theorem exec_bf_not_taken {s : State} (target : Index) (flag : s.t = true) :
    exec (.bf target) s = .next { s with spc := s.spc + 1 } :=
  congrArg Host.Outcome.next (if_pos flag)

theorem exec_bnz_taken {s : State} (target : Index) (mask : s.m ≠ 0#24) :
    exec (.bnz target) s = .next { s with spc := target } :=
  congrArg Host.Outcome.next (if_neg mask)

theorem exec_bnz_not_taken {s : State} (target : Index) (empty : s.m = 0#24) :
    exec (.bnz target) s = .next { s with spc := s.spc + 1 } :=
  congrArg Host.Outcome.next (if_pos empty)

/-- Settles O25: B always jumps, BF and BNZ by the two cases of what they test. -/
theorem branchesSetTheIndex : Obligations.BranchesSetTheIndex :=
  fun target _ => ⟨rfl, exec_bf_taken target, exec_bf_not_taken target, exec_bnz_taken target,
    exec_bnz_not_taken target⟩

theorem exec_ret (s : State) : exec .ret s = .next { s with sact := false, spc := 0#5, dly := 0, hact := false } := by
  have thread := endTransmission_hact s
  simp only [endTransmission] at thread
  simp only [exec, execRet, endTransmission, thread]

/-- Settles O26: HACT is cleared where it is set, and is 0 where it is not. -/
theorem returnEndsTheTransmission : Obligations.ReturnEndsTheTransmission :=
  exec_ret

/-! What a sequencer operation works on (R122). -/

/-- The registers of SEQUENCER as `s` has them, with everything else as `u` has it: the scheduler, HOST's words and the
turns. -/
def amid (u s : State) : State :=
  { u with
    c := s.c, m := s.m, t := s.t, spc := s.spc, dly := s.dly, sact := s.sact, im := s.im, imsave := s.imsave,
    pin := s.pin, hact := s.hact, trace := s.trace, rom := s.rom }

theorem delayStep_amid (n : Nat) (u s : State) : delayStep n (amid u s) = amid u (delayStep n s) := by
  rcases delayStep_cases n s with ⟨rfl, e⟩ | ⟨asks, last, e⟩ | ⟨asks, more, e⟩ <;> rw [e]
  · rfl
  · exact delayStep_last asks last
  · exact delayStep_of_ne_one asks more

/-- A sequencer operation answers a next state, and does the same amid any other state. -/
theorem exec_amid {i : Instr} (sequencer : i.isCommand = false) (s : State) :
    ∃ t, exec i s = .next t ∧ ∀ u, exec i (amid u s) = .next (amid u t) := by
  cases i with
  | start color | setIdle color | transmit color => cases sequencer
  | udelay k => exact ⟨_, rfl, fun u => congrArg Host.Outcome.next (delayStep_amid _ u s)⟩
  | bf target =>
    cases flag : s.t with
    | false => exact ⟨_, exec_bf_taken target flag, fun u => exec_bf_taken target flag⟩
    | true => exact ⟨_, exec_bf_not_taken target flag, fun u => exec_bf_not_taken target flag⟩
  | bnz target =>
    by_cases empty : s.m = 0#24
    · exact ⟨_, exec_bnz_not_taken target empty, fun u => exec_bnz_not_taken target empty⟩
    · exact ⟨_, exec_bnz_taken target empty, fun u => exec_bnz_taken target empty⟩
  | ret => exact ⟨_, exec_ret s, fun u => exec_ret (amid u s)⟩
  | _ => exact ⟨_, rfl, fun _ => rfl⟩

/-- Settles O27: the other values of the scheduler are those of a state the operation is performed amid, and HOST's
words and the turns stay in either. -/
theorem sequencerIgnoresTheScheduler : Obligations.SequencerIgnoresTheScheduler := by
  intro i s sequencer
  obtain ⟨t, e, same⟩ := exec_amid sequencer s
  obtain ⟨t', e', frame⟩ := exec_sequencer_frame s sequencer
  rw [e] at e'; cases e'
  refine ⟨t, e, fun idle count mcf ovf mcen ovfen run pinoe => ?_⟩
  have amid_t : amid { s with idle, count, mcf, ovf, mcen, ovfen, run, pinoe } t =
      { t with idle, count, mcf, ovf, mcen, ovfen, run, pinoe } := by simp only [amid, frame]
  rw [← amid_t]
  exact same { s with idle, count, mcf, ovf, mcen, ovfen, run, pinoe }

end Sys2Proof.Machine
end

section
/-! SUPPORT. What a train is made of, and its size (spec/41_sequencer.md R119, R120). -/

namespace Sys2Proof.Machine

theorem bitPulse_eq (unit : Nat) (bit : Bool) :
    bitPulse unit bit = if bit then pulse (14 * unit) (12 * unit) else pulse (7 * unit) (16 * unit) := by
  simp only [bitPulse, Config.k1h_eq, Config.k1l_eq, Config.k0h_eq, Config.k0l_eq]

/-! The bits of a colour below a place: ones and zeros. -/

theorem onesBelow_le (color : Color) (n : Nat) : onesBelow color n ≤ n := by
  induction n with
  | zero => exact le_rfl
  | succ n ih =>
    rw [onesBelow]
    split <;> omega

/-- One bit more is one zero more where it is no one. -/
theorem zerosBelow_succ (color : Color) (n : Nat) :
    n + 1 - onesBelow color (n + 1) = (if color.getLsbD n then 0 else 1) + (n - onesBelow color n) := by
  have := onesBelow_le color n
  rw [onesBelow]
  split <;> omega

/-! The events of a pulse and of a train. -/

/-- The pin events of a pulse are its two edges. -/
theorem filter_bitPulse (unit : Nat) (bit : Bool) :
    (bitPulse unit bit).filter (fun e => e != .slot) = [.pin true, .pin false] := by
  cases bit <;> simp [bitPulse, pulse]

theorem count_slot_pulse (high low : Nat) : (pulse high low).count .slot = high + low := by
  simp [pulse]

theorem count_slot_bitPulse (unit : Nat) (bit : Bool) :
    (bitPulse unit bit).count .slot = unit * if bit then 26 else 23 := by
  rw [bitPulse_eq]
  cases bit
  · exact (count_slot_pulse _ _).trans (by simp only [Bool.false_eq_true, if_false]; omega)
  · exact (count_slot_pulse _ _).trans (by simp only [if_true]; omega)

/-- Most significant bit first. -/
theorem trainBelow_eq_flatten (unit : Nat) (color : Color) (n : Nat) :
    trainBelow unit color n =
      ((List.range n).map fun j => bitPulse unit (color.getLsbD (n - 1 - j))).flatten := by
  induction n with
  | zero => rfl
  | succ n ih =>
    have shifted (j : Nat) : n - 1 - j = n - (j + 1) := by omega
    simp only [trainBelow, ih, List.range_succ_eq_map, List.map_cons, List.map_map, List.flatten_cons,
      Function.comp_def, Nat.succ_eq_add_one, shifted, Nat.add_sub_cancel, Nat.sub_zero]

theorem filter_trainBelow (unit : Nat) (color : Color) (n : Nat) :
    (trainBelow unit color n).filter (fun e => e != .slot) =
      (List.replicate n [.pin true, .pin false]).flatten := by
  induction n with
  | zero => rfl
  | succ n ih =>
    rw [trainBelow, List.filter_append, filter_bitPulse, ih, List.replicate_succ, List.flatten_cons]

theorem count_slot_trainBelow (unit : Nat) (color : Color) (n : Nat) :
    (trainBelow unit color n).count .slot =
      unit * (26 * onesBelow color n + 23 * (n - onesBelow color n)) := by
  induction n with
  | zero => rfl
  | succ n ih =>
    rw [trainBelow, List.count_append, count_slot_bitPulse, ih, zerosBelow_succ, onesBelow]
    cases color.getLsbD n <;> simp only [Bool.false_eq_true, if_true, if_false] <;> ring

/-- Settles O31: the three facts of 24 bits. -/
theorem trainHasTwentyFourPulses : Obligations.TrainHasTwentyFourPulses := by
  refine fun unit color => ⟨?_, filter_trainBelow unit color 24, count_slot_trainBelow unit color 24⟩
  simp only [train, trainBelow_eq_flatten, bitPulse_eq]

/-! The SEQUENCER steps of the bits below a place (R118, R120). -/

/-- The steps of bits `n - 1` down to 0. -/
def stepsBelow (unit : Nat) (color : Color) : Nat → Nat
  | 0 => 0
  | n + 1 => bitSteps unit (color.getLsbD n) + stepsBelow unit color n

theorem stepsBelow_eq (unit : Nat) (color : Color) (n : Nat) :
    stepsBelow unit color n = 7 * onesBelow color n + 6 * (n - onesBelow color n) +
      unit * (26 * onesBelow color n + 23 * (n - onesBelow color n)) := by
  induction n with
  | zero => rfl
  | succ n ih =>
    rw [stepsBelow, ih, zerosBelow_succ, onesBelow, bitSteps]
    cases color.getLsbD n <;> simp only [Bool.false_eq_true, if_true, if_false] <;> ring

/-- Two steps open the bracket and load the mask, and two close the bracket and return. -/
theorem transmissionSteps_eq (unit : Nat) (color : Color) :
    transmissionSteps unit color = 4 + stepsBelow unit color 24 := by
  rw [stepsBelow_eq, transmissionSteps, ones]
  omega

/-- Each 1 bit takes one step and three units more than a 0 bit. -/
theorem transmissionSteps_eq_ones (unit : Nat) (color : Color) :
    transmissionSteps unit color = 148 + ones color + unit * (552 + 3 * ones color) := by
  have bound : ones color ≤ 24 := onesBelow_le color 24
  have slots : 26 * ones color + 23 * (24 - ones color) = 552 + 3 * ones color := by omega
  rw [transmissionSteps, slots]
  omega

theorem transmissionSteps_bounds (unit : Nat) (color : Color) :
    148 + 552 * unit ≤ transmissionSteps unit color ∧ transmissionSteps unit color ≤ 172 + 624 * unit := by
  have bound : ones color ≤ 24 := onesBelow_le color 24
  have least : unit * 552 ≤ unit * (552 + 3 * ones color) := Nat.mul_le_mul_left unit (by omega)
  have most : unit * (552 + 3 * ones color) ≤ unit * 624 := Nat.mul_le_mul_left unit (by omega)
  rw [transmissionSteps_eq_ones]
  omega

end Sys2Proof.Machine
end

section
/-! SUPPORT. A transmission of SEQUENCER alone (spec/41_sequencer.md R118 to R120): the program of R117 run from place
to place, with its number of steps and the whole state it leaves. -/

namespace Sys2Proof.Machine

/-- SEQUENCER alone takes `s` to `t` in `n` steps, each from an active state. -/
inductive SequencerRun : Nat → State → State → Prop
  | refl (s : State) : SequencerRun 0 s s
  | step {n : Nat} {s u t : State} (active : s.sact = true) (first : sequencerStep s = .next u)
      (later : SequencerRun n u t) : SequencerRun (n + 1) s t

theorem SequencerRun.trans {m n : Nat} {s t u : State} (run : SequencerRun m s t) (later : SequencerRun n t u) :
    SequencerRun (m + n) s u := by
  induction run with
  | refl s => rwa [Nat.zero_add]
  | step active first _ ih =>
    rw [Nat.add_right_comm]
    exact .step active first (ih later)

/-- A run in two parts. -/
theorem SequencerRun.split {m n : Nat} {s u : State} (run : SequencerRun (m + n) s u) :
    ∃ t, SequencerRun m s t ∧ SequencerRun n t u := by
  induction m generalizing s with
  | zero => exact ⟨s, .refl s, by rwa [Nat.zero_add] at run⟩
  | succ m ih =>
    rw [Nat.add_right_comm] at run
    cases run with
    | step active first later =>
      obtain ⟨t, run, later⟩ := ih later
      exact ⟨t, .step active first run, later⟩

/-- Before its end the state of a run is active. -/
theorem SequencerRun.active {n : Nat} {s t : State} (run : SequencerRun (n + 1) s t) : s.sact = true := by
  cases run with
  | step active _ _ => exact active

/-- A sequencer operation leaves the colour. -/
theorem sequencerStep_c {s t : State} (h : sequencerStep s = .next t) : t.c = s.c := by
  rcases sequencerStep_cases s with ⟨-, e⟩ | ⟨w, i, -, decoded, e⟩ | ⟨_, _, -, -, e⟩ <;> rw [e] at h
  · cases h
  · obtain ⟨t', e', c, -⟩ := exec_sequencer_frame s (onlyClass_ok_iff.1 decoded).2
    rw [h] at e'; cases e'
    exact c
  · cases h

theorem SequencerRun.c_eq {n : Nat} {s t : State} (run : SequencerRun n s t) : t.c = s.c := by
  induction run with
  | refl s => rfl
  | step _ first _ ih => exact ih.trans (sequencerStep_c first)

/-- The listing has the operation at the index. -/
def ListedAt (index : Index) (op : Instr) : Prop := index.toNat ≤ 16 ∧ listingAt index.toNat = op

theorem sequencerStep_of_listedAt {s : State} {op : Instr} (rom : s.rom = []) (listed : ListedAt s.spc op) :
    sequencerStep s = exec op s := by
  obtain ⟨bound, rfl⟩ := listed
  exact sequencerStep_listing rom bound

/-- An operation that is performed `n` times in a row, from active states that stand at its index, is a run. -/
theorem SequencerRun.of_repeatOp {op : Instr} {n : Nat} {s t : State} (all : repeatOp op n s = .next t)
    (stands : ∀ m < n, ∃ u, repeatOp op m s = .next u ∧ u.sact = true ∧ u.rom = [] ∧ ListedAt u.spc op) :
    SequencerRun n s t := by
  induction n generalizing s with
  | zero => cases all; exact .refl _
  | succ n ih =>
    obtain ⟨u, here, active, rom, listed⟩ := stands 0 (by omega)
    cases here
    cases first : exec op s with
    | next s' =>
      rw [repeatOp_succ n first] at all
      refine .step active ((sequencerStep_of_listedAt rom listed).trans first) (ih all fun m less => ?_)
      rw [← repeatOp_succ m first]
      exact stands (m + 1) (by omega)
    | fault r | refused r =>
      simp only [repeatOp, first] at all
      cases all

/-! From place to place. A state at an index of the program is `jump index s`. -/

section
variable {s : State} (active : s.sact = true) (rom : s.rom = [])
include active rom

/-- One operation. -/
theorem sequencerRun_one {index : Index} {op : Instr} {t : State} (listed : ListedAt index op)
    (h : exec op (jump index s) = .next t) : SequencerRun 1 (jump index s) t :=
  .step active ((sequencerStep_of_listedAt (s := jump index s) rom listed).trans h) (.refl t)

/-- A whole UDELAY. -/
theorem sequencerRun_udelay {index : Index} {k : Units} (listed : ListedAt index (.udelay k)) (rest : s.dly = 0)
    (units : 0 < k.toNat) :
    SequencerRun (slotCount Config.unitNops k) (jump index s)
      (afterSlots (slotCount Config.unitNops k) (index + 1) s) := by
  refine .of_repeatOp (repeatOp_udelay_all (s := jump index s) rest units) fun m fewer => ?_
  cases m with
  | zero => exact ⟨_, rfl, active, rom, listed⟩
  | succ m =>
    exact ⟨_, repeatOp_udelay_some (s := jump index s) rest (Nat.succ_pos m) fewer, active, rom, listed⟩

/-- An edge of the pin and the hold after it. -/
theorem sequencerRun_edge {index : Index} {op : Instr} {level : Bool} {k : Units} (edge : ListedAt index op)
    (hold : ListedAt (index + 1) (.udelay k)) (drives : ∀ u, exec op u = .next (advance (drivePin level u)))
    (rest : s.dly = 0) (units : 0 < k.toNat) :
    SequencerRun (1 + slotCount Config.unitNops k) (jump index s) (jump (index + 1 + 1) { s with
      pin := level
      trace := s.trace ++ [.pin level] ++ List.replicate (slotCount Config.unitNops k) .slot }) :=
  (sequencerRun_one active rom edge (drives (jump index s))).trans
    (sequencerRun_udelay (s := drivePin level s) active rom hold rest units)

/-- A pulse: PINHI, a hold, PINLO, a hold. -/
theorem sequencerRun_pulse {index : Index} {high low : Units} (rise : ListedAt index .pinHi)
    (highHold : ListedAt (index + 1) (.udelay high)) (fall : ListedAt (index + 1 + 1) .pinLo)
    (lowHold : ListedAt (index + 1 + 1 + 1) (.udelay low)) (rest : s.dly = 0)
    (highUnits : 0 < high.toNat) (lowUnits : 0 < low.toNat) :
    SequencerRun (1 + slotCount Config.unitNops high + (1 + slotCount Config.unitNops low)) (jump index s)
      (jump (index + 1 + 1 + 1 + 1) { s with
        pin := false
        trace := s.trace ++ pulse (slotCount Config.unitNops high) (slotCount Config.unitNops low) }) := by
  have up := sequencerRun_edge active rom rise highHold (fun _ => rfl) rest highUnits
  have down := sequencerRun_edge (s := { s with
      pin := true
      trace := s.trace ++ [.pin true] ++ List.replicate (slotCount Config.unitNops high) .slot })
    active rom fall lowHold (fun _ => rfl) rest lowUnits
  simpa only [pulse, List.append_assoc] using up.trans down

/-- IRQSAVE and LDMASK open the bracket and point the mask at bit 23. -/
theorem sequencerRun_open :
    SequencerRun 2 (jump 0#5 s) (jump 2#5 { s with imsave := s.im, im := true, m := Config.msbMask }) := by
  have opened : SequencerRun 1 (jump 0#5 s) (jump 1#5 { s with imsave := s.im, im := true }) :=
    sequencerRun_one active rom ⟨by decide, rfl⟩ rfl
  exact opened.trans (n := 1) (sequencerRun_one (s := { s with imsave := s.im, im := true }) active rom
    ⟨by decide, rfl⟩ rfl)

/-- TST and BF: the flag decides where the bit's pulse stands. -/
theorem sequencerRun_test :
    SequencerRun 2 (jump 2#5 s)
      (jump (if testFlag s.c s.m then 4#5 else 9#5) { s with t := testFlag s.c s.m }) := by
  have test : SequencerRun 1 (jump 2#5 s) (jump 3#5 { s with t := testFlag s.c s.m }) :=
    sequencerRun_one active rom ⟨by decide, rfl⟩ rfl
  refine test.trans (n := 1) (sequencerRun_one (s := { s with t := testFlag s.c s.m }) (op := .bf 9#5) active rom
    ⟨by decide, rfl⟩ ?_)
  cases testFlag s.c s.m
  · exact exec_bf_taken 9#5 rfl
  · exact exec_bf_not_taken 9#5 rfl

/-- From where the flag leads to SHR: the bit's pulse, and after a 1 bit the branch over the other pulse. -/
theorem sequencerRun_bitPulse (bit : Bool) (rest : s.dly = 0) :
    SequencerRun (if bit then 3 + 26 * Config.unitNops else 2 + 23 * Config.unitNops)
      (jump (if bit then 4#5 else 9#5) s)
      (jump 13#5 { s with pin := false, trace := s.trace ++ bitPulse Config.unitNops bit }) := by
  rw [bitPulse_eq]
  cases bit with
  | false =>
    have pulsed := sequencerRun_pulse (index := 9#5) (high := 7#8) (low := 16#8) active rom ⟨by decide, rfl⟩
      ⟨by decide, rfl⟩ ⟨by decide, rfl⟩ ⟨by decide, rfl⟩ rest (by decide) (by decide)
    have steps : 1 + slotCount Config.unitNops 7#8 + (1 + slotCount Config.unitNops 16#8) =
      2 + 23 * Config.unitNops := by simp only [slotCount, BitVec.toNat_ofNat]; omega
    exact steps ▸ pulsed
  | true =>
    have pulsed := sequencerRun_pulse (index := 4#5) (high := 14#8) (low := 12#8) active rom ⟨by decide, rfl⟩
      ⟨by decide, rfl⟩ ⟨by decide, rfl⟩ ⟨by decide, rfl⟩ rest (by decide) (by decide)
    have joined := sequencerRun_one (index := 8#5) (op := .b 13#5) (s := { s with
        pin := false
        trace := s.trace ++ pulse (slotCount Config.unitNops 14#8) (slotCount Config.unitNops 12#8) })
      active rom ⟨by decide, rfl⟩ rfl
    have steps : 1 + slotCount Config.unitNops 14#8 + (1 + slotCount Config.unitNops 12#8) + 1 =
      3 + 26 * Config.unitNops := by simp only [slotCount, BitVec.toNat_ofNat]; omega
    exact steps ▸ pulsed.trans joined

/-- SHR and BNZ: back to TST while bits are left. -/
theorem sequencerRun_shift :
    SequencerRun 2 (jump 13#5 s)
      (jump (if shiftMask s.m = 0#24 then 15#5 else 2#5) { s with m := shiftMask s.m }) := by
  have shift : SequencerRun 1 (jump 13#5 s) (jump 14#5 { s with m := shiftMask s.m }) :=
    sequencerRun_one active rom ⟨by decide, rfl⟩ rfl
  refine shift.trans (n := 1) (sequencerRun_one (s := { s with m := shiftMask s.m }) (op := .bnz 2#5) active rom
    ⟨by decide, rfl⟩ ?_)
  by_cases empty : shiftMask s.m = 0#24
  · rw [if_pos empty]
    exact exec_bnz_not_taken 2#5 empty
  · rw [if_neg empty]
    exact exec_bnz_taken 2#5 empty

/-- IRQREST and RET close the bracket and end the transmission. -/
theorem sequencerRun_close :
    SequencerRun 2 (jump 15#5 s)
      { s with im := s.imsave, sact := false, spc := 0#5, dly := 0, hact := false } := by
  have closed : SequencerRun 1 (jump 15#5 s) (jump 16#5 { s with im := s.imsave }) :=
    sequencerRun_one active rom ⟨by decide, rfl⟩ rfl
  exact closed.trans (n := 1) (sequencerRun_one (s := { s with im := s.imsave }) active rom ⟨by decide, rfl⟩
    (exec_ret _))

end

/-- The state after the bit that the mask selects (R118). -/
def afterBit (s : State) : State :=
  jump (if shiftMask s.m = 0#24 then 15#5 else 2#5) { s with
    t := testFlag s.c s.m
    m := shiftMask s.m
    pin := false
    trace := s.trace ++ bitPulse Config.unitNops (testFlag s.c s.m) }

/-- The state after the bits `n` down to 0. -/
def afterBits (n : Nat) (s : State) : State :=
  jump 15#5 { s with
    t := s.c.getLsbD 0
    m := 0#24
    pin := false
    trace := s.trace ++ trainBelow Config.unitNops s.c (n + 1) }

/-- The state after a whole transmission (R119). -/
def afterTransmission (s : State) : State :=
  { s with
    t := s.c.getLsbD 0, m := 0#24, imsave := s.im, pin := false, sact := false, spc := 0#5, dly := 0, hact := false
    trace := s.trace ++ train Config.unitNops s.c }

/-! A mask with one bit. -/

theorem msbMask_eq : Config.msbMask = 1#24 <<< 23 := by decide

theorem mask_ne_zero : ∀ n, n < 24 → 1#24 <<< n ≠ 0#24 := by decide

theorem shiftMask_mask : ∀ n, n < 23 → shiftMask (1#24 <<< (n + 1)) = 1#24 <<< n := by decide

/-- The last bit leaves the loop. -/
theorem afterBit_zero {s : State} (mask : s.m = 1#24 <<< 0) : afterBit s = afterBits 0 s := by
  have empty : shiftMask (1#24 <<< 0) = 0#24 := by decide
  rw [afterBit, mask, testFlag_mask s.c (by decide), empty, if_pos rfl, afterBits, trainBelow, trainBelow,
    List.append_nil]

/-- Any other bit leads back to TST, with the mask at the next one. -/
theorem afterBit_succ {s : State} {n : Nat} (bound : n + 1 < 24) (mask : s.m = 1#24 <<< (n + 1)) :
    afterBit s = jump 2#5 { s with
      t := s.c.getLsbD (n + 1)
      m := 1#24 <<< n
      pin := false
      trace := s.trace ++ bitPulse Config.unitNops (s.c.getLsbD (n + 1)) } := by
  rw [afterBit, mask, testFlag_mask s.c bound, shiftMask_mask n (by omega), if_neg (mask_ne_zero n (by omega))]

section
variable {s : State} (active : s.sact = true) (rom : s.rom = []) (rest : s.dly = 0)
include active rom rest

/-- One bit: TST and BF, the pulse, SHR and BNZ. -/
theorem sequencerRun_bit :
    SequencerRun (bitSteps Config.unitNops (testFlag s.c s.m)) (jump 2#5 s) (afterBit s) := by
  have test := sequencerRun_test active rom
  have pulsed := sequencerRun_bitPulse (s := { s with t := testFlag s.c s.m }) active rom (testFlag s.c s.m) rest
  have shift := sequencerRun_shift (s := { s with
      t := testFlag s.c s.m, pin := false, trace := s.trace ++ bitPulse Config.unitNops (testFlag s.c s.m) })
    active rom
  have steps (bit : Bool) : 2 + (if bit then 3 + 26 * Config.unitNops else 2 + 23 * Config.unitNops) + 2 =
      bitSteps Config.unitNops bit := by
    cases bit <;> simp only [bitSteps, Bool.false_eq_true, if_true, if_false] <;> omega
  exact steps _ ▸ (test.trans pulsed).trans shift

/-- The bits from the mask's on: by induction on the place of the mask. -/
theorem sequencerRun_bits {n : Nat} (bound : n < 24) (mask : s.m = 1#24 <<< n) :
    SequencerRun (stepsBelow Config.unitNops s.c (n + 1)) (jump 2#5 s) (afterBits n s) := by
  induction n generalizing s with
  | zero =>
    have last := sequencerRun_bit active rom rest
    rwa [afterBit_zero mask, mask, testFlag_mask s.c bound] at last
  | succ n ih =>
    have first := sequencerRun_bit active rom rest
    rw [afterBit_succ bound mask, mask, testFlag_mask s.c bound] at first
    have run := first.trans (ih (by exact active) (by exact rom) (by exact rest) (by omega) rfl)
    simpa only [afterBits, stepsBelow, trainBelow, List.append_assoc] using run

/-- A whole transmission: the bracket is opened and the mask loaded, the bits are sent, and the bracket is closed before
RET. -/
theorem sequencerRun_transmission :
    SequencerRun (transmissionSteps Config.unitNops s.c) (jump 0#5 s) (afterTransmission s) := by
  have opened := sequencerRun_open active rom
  have sent := sequencerRun_bits (n := 23) (s := { s with imsave := s.im, im := true, m := Config.msbMask })
    active rom rest (by decide) msbMask_eq
  have closed := sequencerRun_close (s := { s with
      t := s.c.getLsbD 0, m := 0#24, imsave := s.im, im := true, pin := false
      trace := s.trace ++ train Config.unitNops s.c })
    active rom
  have steps : 2 + (stepsBelow Config.unitNops s.c 24 + 2) = transmissionSteps Config.unitNops s.c := by
    rw [transmissionSteps_eq]; omega
  exact steps ▸ opened.trans (sent.trans closed)

end

end Sys2Proof.Machine
end

section
/-! SUPPORT. Transmissions under any interleaving of ticks (spec/00_scope.md R7; spec/41_sequencer.md R118 to R121): the
processor side's turns are SEQUENCER's own run, and the ticks between them touch only the counter. -/

namespace Sys2Proof.Machine

/-! SEQUENCER and COUNTER do not meet: each steps amid what the other works on. -/

theorem sequencerStep_amid {s t : State} (h : sequencerStep s = .next t) (u : State) :
    sequencerStep (amid u s) = .next (amid u t) := by
  rcases sequencerStep_cases s with ⟨-, e⟩ | ⟨w, i, fetched, decoded, e⟩ | ⟨_, _, -, -, e⟩ <;> rw [e] at h
  · cases h
  · obtain ⟨t', e', same⟩ := exec_amid (onlyClass_ok_iff.1 decoded).2 s
    rw [h] at e'; cases e'
    exact (sequencerStep_of_decodeRom (s := amid u s) fetched decoded).trans (same u)
  · cases h

theorem counterStep_amid (u s : State) : counterStep (amid u s) = amid (counterStep u) s := by
  simp only [counterStep, tick, apply_ite (amid · s)]
  rfl

/-! One turn of a transmission. -/

/-- A turn that is neither a reset nor a tick is the processor side's. -/
theorem processorSide_or_tick {turn : Turn} (noReset : turn ≠ .reset) (armed : Bool) :
    (turn = .processor ∨ turn = .counter ∧ armed = false) ∨ turn = .counter ∧ armed = true := by
  cases turn with
  | processor => exact .inl (.inl rfl)
  | counter =>
    cases armed with
    | false => exact .inl (.inr ⟨rfl, rfl⟩)
    | true => exact .inr ⟨rfl, rfl⟩
  | reset => exact absurd rfl noReset

theorem processorTurns_cons_side {turn : Turn} {armed : Bool}
    (side : turn = .processor ∨ turn = .counter ∧ armed = false) (turns : List Turn) :
    processorTurns armed (turn :: turns) = processorTurns armed turns + 1 := by
  rcases side with rfl | ⟨rfl, rfl⟩ <;> exact Nat.add_comm _ _

theorem processorTurns_cons_tick (turns : List Turn) :
    processorTurns true (.counter :: turns) = processorTurns true turns :=
  Nat.zero_add _

section
variable {s u : State} {turn : Turn} {rest : List Turn} (listed : u.turns = turn :: rest)
include listed

/-- A turn of the processor side is SEQUENCER's while it is active. -/
theorem step_amid_side (side : turn = .processor ∨ turn = .counter ∧ u.run = false) (active : s.sact = true)
    {t : State} (h : sequencerStep s = .next t) : step (amid u s) = .next (amid { u with turns := rest } t) := by
  obtain ⟨now, later⟩ := turn_cons (s := amid u s) listed
  have side' : ProcessorSide (amid u s) := by rwa [ProcessorSide, now]
  rw [step_sequencer side' active, later]
  exact sequencerStep_amid h { u with turns := rest }

/-- A tick moves the count and the event flags. -/
theorem step_amid_tick (tick : turn = .counter) (armed : u.run = true) :
    ∃ count mcf ovf, step (amid u s) =
      .next (amid { u with turns := rest, count := count, mcf := mcf, ovf := ovf } s) := by
  obtain ⟨now, later⟩ := turn_cons (s := amid u s) listed
  obtain ⟨count, mcf, ovf, ticked⟩ := counterStep_eq { u with turns := rest }
  refine ⟨count, mcf, ovf, ?_⟩
  rw [step_counter (now.trans tick) armed, later, ← ticked, ← counterStep_amid]
  rfl

end

/-- Whatever ticks interleave, the processor side's turns take SEQUENCER through its own run, and of the rest of the
state only the turns, the count and the event flags move. -/
theorem SequencerRun.exists_amid {n : Nat} {s t u : State} (run : SequencerRun n s t) {turns rest : List Turn}
    (listed : u.turns = turns ++ rest) (noReset : .reset ∉ turns) (steps : processorTurns u.run turns = n) :
    ∃ count mcf ovf, runSteps turns.length (amid u s) =
      .next (amid { u with turns := rest, count := count, mcf := mcf, ovf := ovf } t) := by
  induction turns generalizing n s u with
  | nil =>
    cases steps
    cases run
    exact ⟨u.count, u.mcf, u.ovf, by rw [← show u.turns = rest from listed]; rfl⟩
  | cons turn turns ih =>
    simp only [List.mem_cons, not_or] at noReset
    rcases processorSide_or_tick (Ne.symm noReset.1) u.run with side | ⟨tick, armed⟩
    · rw [processorTurns_cons_side side] at steps
      subst steps
      cases run with
      | step active first later =>
        have taken := step_amid_side listed side active first
        obtain ⟨count, mcf, ovf, e⟩ := ih (u := { u with turns := turns ++ rest }) later rfl noReset.2 rfl
        exact ⟨count, mcf, ovf, (runSteps_succ _ taken).trans e⟩
    · obtain ⟨count, mcf, ovf, taken⟩ := step_amid_tick (s := s) listed tick armed
      rw [tick, armed, processorTurns_cons_tick, ← armed] at steps
      obtain ⟨count', mcf', ovf', e⟩ :=
        ih (u := { u with turns := turns ++ rest, count, mcf, ovf }) run rfl noReset.2 steps
      exact ⟨count', mcf', ovf', (runSteps_succ _ taken).trans e⟩

/-- The same of a run from the whole state: what SEQUENCER's own run leaves is what the interleaved one leaves, but for
the turns, the count and the event flags. -/
theorem SequencerRun.exists_runSteps {n : Nat} {s t : State} (run : SequencerRun n s t) {turns rest : List Turn}
    (listed : s.turns = turns ++ rest) (noReset : .reset ∉ turns) (steps : processorTurns s.run turns = n) :
    ∃ count mcf ovf, runSteps turns.length s =
      .next (amid { s with turns := rest, count := count, mcf := mcf, ovf := ovf } t) :=
  run.exists_amid (u := s) listed noReset steps

theorem jump_of_spc {s : State} {index : Index} (spc : s.spc = index) : jump index s = s := by
  subst spc; rfl

/-- Settles O28: the run of one bit, interleaved. -/
theorem oneBitMakesOnePulse : Obligations.OneBitMakesOnePulse := by
  intro s turns rest i rom active spc dly pin bound mask listed noReset steps
  have test : testFlag s.c s.m = s.c.getLsbD i := by rw [mask, testFlag_mask s.c bound]
  have run := sequencerRun_bit active rom dly
  rw [jump_of_spc spc, test] at run
  obtain ⟨count, mcf, ovf, e⟩ := run.exists_runSteps listed noReset steps
  rw [← bitPulse_eq]
  refine ⟨_, e, rfl, ?_, rfl, test, dly, active, fun more => ?_, fun last => ?_, rfl, rfl, rfl⟩
  · rw [← test]; rfl
  · obtain ⟨j, rfl⟩ := Nat.exists_eq_succ_of_ne_zero more.ne'
    change (afterBit s).m = _ ∧ (afterBit s).spc = _
    rw [afterBit_succ bound mask]
    exact ⟨rfl, rfl⟩
  · subst last
    change (afterBit s).m = _ ∧ (afterBit s).spc = _
    rw [afterBit_zero mask]
    exact ⟨rfl, rfl⟩

/-- A transmission, interleaved, from the state after `StartTx`. -/
theorem exists_runSteps_transmission {s : State} {turns rest : List Turn} (rom : s.rom = []) (active : s.sact = true)
    (spc : s.spc = 0#5) (dly : s.dly = 0) (listed : s.turns = turns ++ rest) (noReset : .reset ∉ turns)
    (steps : processorTurns s.run turns = transmissionSteps Config.unitNops s.c) :
    ∃ count mcf ovf, runSteps turns.length s =
      .next (amid { s with turns := rest, count := count, mcf := mcf, ovf := ovf } (afterTransmission s)) := by
  have run := sequencerRun_transmission active rom dly
  rw [jump_of_spc spc] at run
  exact run.exists_runSteps listed noReset steps

/-- Settles O29: what the transmission leaves, field by field. -/
theorem transmissionEmitsItsTrain : Obligations.TransmissionEmitsItsTrain := by
  intro s turns rest rom active spc dly pin listed noReset steps
  obtain ⟨count, mcf, ovf, e⟩ := exists_runSteps_transmission rom active spc dly listed noReset steps
  exact ⟨_, e, rfl, rfl, rfl, rfl, rfl, rfl, rfl, rfl, rfl, rfl, rfl, rfl, rfl, rfl, rfl, rfl, rfl, rfl, rom⟩

/-- Settles O30: a run with steps left is at a state from which SEQUENCER steps on. -/
theorem transmissionTakesExactlyItsSteps : Obligations.TransmissionTakesExactlyItsSteps := by
  refine ⟨fun s turns rest rom active spc dly listed noReset => ⟨fun fewer => ?_, fun steps => ?_⟩,
    transmissionSteps_bounds⟩
  · have run := sequencerRun_transmission active rom dly
    obtain ⟨left, more⟩ := Nat.exists_eq_add_of_lt fewer
    rw [jump_of_spc spc, more, Nat.add_assoc] at run
    obtain ⟨t, part, later⟩ := run.split
    obtain ⟨count, mcf, ovf, e⟩ := part.exists_runSteps listed noReset rfl
    exact ⟨_, e, later.active, part.c_eq⟩
  · obtain ⟨count, mcf, ovf, e⟩ := exists_runSteps_transmission rom active spc dly listed noReset steps
    exact ⟨_, e, rfl⟩

/-- Settles O32: both append the train of the colour they share. -/
theorem transmissionsOfOneColourAreIdentical : Obligations.TransmissionsOfOneColourAreIdentical := by
  intro s s' turns turns' rest rest' rom active spc dly _ rom' active' spc' dly' _ c listed listed' noReset noReset'
    steps steps'
  obtain ⟨count, mcf, ovf, e⟩ := exists_runSteps_transmission rom active spc dly listed noReset steps
  obtain ⟨count', mcf', ovf', e'⟩ := exists_runSteps_transmission rom' active' spc' dly' listed' noReset' steps'
  refine ⟨_, _, train Config.unitNops s.c, e, e', rfl, rfl, rfl, ?_⟩
  rw [c]
  rfl

end Sys2Proof.Machine
end

section
/-! SUPPORT. What can stop a safe state (spec/60_exceptions.md R130): nothing but a refusal of HOST's word. -/

namespace Sys2Proof.Machine

/-- What a HOST step answers: a next state, or one of the three refusals of R130, each with its cause. -/
theorem hostStep_outcomes (w : Word) (s : State) :
    (∃ t, hostStep w s = .next t) ∨
    ∃ r, hostStep w s = .refused r ∧
      (r = .illegalCommand ∧ (∀ i, decodeCommand w ≠ .ok i) ∨
       r = .startTwice ∧ s.run = true ∧ opField w = 0x01#8 ∨
       r = .pinNotConfigured ∧ s.pinoe = false ∧ opField w = 0x03#8) := by
  rcases hostStep_cases w s with ⟨i, decoded, e⟩ | ⟨error, failed, e⟩ <;> rw [e]
  · obtain ⟨spelled, command⟩ := onlyClass_ok_iff.1 decoded
    rw [← encode_of_decode spelled]
    clear decoded spelled
    cases i <;> simp only [Instr.isCommand, Bool.false_eq_true] at command
    case start color =>
      cases armed : s.run with
      | false => exact .inl ⟨_, (startArmsTheBlock color s).1 armed⟩
      | true =>
        exact .inr ⟨_, (startArmsTheBlock color s).2 armed, .inr (.inl ⟨rfl, rfl, opField_formatW _ color⟩)⟩
    case setIdle color => exact .inl ⟨_, rfl⟩
    case transmit color =>
      cases output : s.pinoe with
      | true => exact .inl ⟨_, (transmitStartsTheSequencer color s).1 output⟩
      | false =>
        exact .inr ⟨_, (transmitStartsTheSequencer color s).2 output,
          .inr (.inr ⟨rfl, rfl, opField_formatW _ color⟩)⟩
  · exact .inr ⟨_, rfl, .inl ⟨rfl, fun i decoded => by cases failed.symm.trans decoded⟩⟩

/-- From a safe state only a step of HOST can answer anything but a next state: the listing's operations all complete,
and some agent of the processor side is enabled. -/
theorem SafeState.exists_step_or_hostStep {s : State} (safe : SafeState s) :
    (∃ t, step s = .next t) ∨
    hostEnabled s = true ∧ ∃ w rest, s.commands = w :: rest ∧
      step s = Machine.hostStep w { Machine.afterTurn s with commands := rest } := by
  by_cases turn : currentTurn s = .reset
  · exact .inl ⟨_, step_reset turn⟩
  have agentStep := step_isStepOf turn
  cases who : stepper s with
  | none =>
    rw [who] at agentStep
    rcases agentStep with ⟨-, -, -, e⟩ | ⟨stuck, -⟩
    · exact .inl ⟨_, e⟩
    · simp only [enabled_afterTurn] at stuck
      obtain ⟨-, -, -, oneEnabled⟩ := oneProcessorAgentIsEnabled s
      rcases oneEnabled safe.handlerActive with on | on | on
      · cases (stuck .sequencer).symm.trans on
      · cases (stuck .dispatcher).symm.trans on
      · cases (stuck .host).symm.trans on
  | some agent =>
    rw [who] at agentStep
    cases agent with
    | sequencer =>
      obtain ⟨active, e⟩ := agentStep
      rw [e]
      rcases safe.afterTurn.sequencerStep_cases active with ⟨e, -⟩ | ⟨t, e, -⟩
      · exact .inl ⟨_, e⟩
      · exact .inl ⟨t, e⟩
    | host =>
      obtain ⟨ready, w, rest, words, e⟩ := agentStep
      rw [enabled_afterTurn] at ready
      rw [afterTurn_commands] at words
      exact .inr ⟨ready, w, rest, words, e⟩
    | dispatcher | counter =>
      obtain ⟨-, e⟩ := agentStep
      exact .inl ⟨_, e⟩

/-- Settles O46: the step is HOST's, and a HOST step is refused only as `hostStep_outcomes` says. -/
theorem refusalsAreHostCommands : Obligations.RefusalsAreHostCommands := by
  intro s r safe refused
  rcases safe.exists_step_or_hostStep with ⟨t, e⟩ | ⟨ready, w, rest, words, e⟩
  · cases refused.symm.trans e
  · refine ⟨ready, w, rest, words, ?_⟩
    rcases hostStep_outcomes w { afterTurn s with commands := rest } with ⟨t, e'⟩ | ⟨r', e', cause⟩
    · cases refused.symm.trans (e.trans e')
    · cases refused.symm.trans (e.trans e')
      simpa [opField] using cause

/-- Settles O47: a HOST step answers a next state or a refusal, and any other step of a safe state a next state. -/
theorem safeStatesNeverFault : Obligations.SafeStatesNeverFault := by
  intro s r safe fault
  rcases safe.exists_step_or_hostStep with ⟨t, e⟩ | ⟨-, w, rest, -, e⟩
  · cases fault.symm.trans e
  · rcases hostStep_outcomes w { afterTurn s with commands := rest } with ⟨t, e'⟩ | ⟨r', e', -⟩ <;>
      cases fault.symm.trans (e.trans e')

end Sys2Proof.Machine
end

section
/-! SUPPORT. The scheduler's own steps (spec/60_exceptions.md R139, R146): the interrupt entry and the tick, and that
neither the entry nor HOST cuts into a transmission (R142). -/

namespace Sys2Proof.Machine

/-- With only the rollover flag set an entry services the rollover event (R139). -/
theorem interruptEntry_of_ovf {s : State} (noMcf : s.mcf = false) (ovf : s.ovf = true) :
    interruptEntry s = startTx Config.white { s with hact := true, ovf := false } := by
  simp only [interruptEntry, noMcf, ovf, Bool.false_eq_true, if_false, if_true]

theorem interruptEntry_of_no_event {s : State} (noMcf : s.mcf = false) (noOvf : s.ovf = false) :
    interruptEntry s = { s with hact := false } := by
  simp only [interruptEntry, noMcf, noOvf, Bool.false_eq_true, if_false]

/-- An interrupt can be taken only with an event flag set (R134, R135). -/
theorem event_of_takeable {s : State} (take : takeable s = true) : s.mcf = true ∨ s.ovf = true := by
  obtain ⟨line, -⟩ := (takeable_iff s).1 take
  simp only [irq, Bool.or_eq_true, Bool.and_eq_true] at line
  exact line.imp And.left And.left

/-- A sequencer operation never sets `HACT`. -/
theorem exec_sequencer_hact {i : Instr} {s t : State} (sequencer : i.isCommand = false) (h : exec i s = .next t) :
    t.hact = true → s.hact = true := by
  obtain ⟨t', e, -, -, -, -, -, -, -, -, -, hact, -⟩ := exec_sequencer_frame s sequencer
  rw [h] at e; cases e
  exact hact

/-- `HACT` rises only by an entry: ticks and commands leave it, and a sequencer operation never sets it. -/
theorem takeable_of_hact_rises {s t : State} (h : step s = .next t) (thread : s.hact = false)
    (handler : t.hact = true) : takeable s = true := by
  rcases step_cases h with ⟨-, rfl⟩ | ⟨-, rfl⟩ | ⟨-, w, i, -, decoded, e⟩ | ⟨take, -⟩ |
    ⟨-, w, rest, i, -, decoded, e⟩ | ⟨-, -, -, rfl⟩
  · cases handler
  · simp [thread] at handler
  · simpa [thread] using exec_sequencer_hact (onlyClass_ok_iff.1 decoded).2 e handler
  · exact take
  · rcases exec_command_cases (onlyClass_ok_iff.1 decoded).2 e with
      ⟨color, -, -, rfl⟩ | ⟨color, -, rfl⟩ | ⟨color, -, -, rfl⟩ <;> simp [thread] at handler
  · simp [thread] at handler

/-- Settles O33: the entry is the step where one can be made (`step_entry`), and its branches are the flags'. -/
theorem entryServicesOneFlag : Obligations.EntryServicesOneFlag := by
  refine ⟨fun s side take => ⟨fun mcf => ?_, fun noMcf => ?_⟩, fun s => interruptEntry_of_no_event,
    fun s => event_of_takeable, fun s t => takeable_of_hact_rises⟩
  · have color : idleColor (afterTurn s) = s.idle.extractLsb' 0 24 := by rw [idleColor_eq, afterTurn_idle]
    rw [step_entry side take, interruptEntry_of_mcf (by simpa using mcf), color]
    rfl
  · have ovf : s.ovf = true := by simpa [noMcf] using event_of_takeable take
    rw [step_entry side take, interruptEntry_of_ovf (by simpa using noMcf) (by simpa using ovf)]
    rfl

/-- A tick at the last count of the period raises the rollover event. -/
theorem counterStep_rollover {s : State} (last : s.count = Config.periodTicks - 1) :
    counterStep s = { s with count := 0, ovf := true } :=
  if_pos last

/-- A tick to the compare value raises the short event. -/
theorem counterStep_short {s : State} (notLast : s.count ≠ Config.periodTicks - 1)
    (short : s.count + 1 = Config.shortTicks) : counterStep s = { s with count := s.count + 1, mcf := true } := by
  simp only [counterStep, tick, if_neg notLast, if_pos short]

/-- Any other tick only counts. -/
theorem counterStep_counts {s : State} (notLast : s.count ≠ Config.periodTicks - 1)
    (noShort : s.count + 1 ≠ Config.shortTicks) : counterStep s = { s with count := s.count + 1 } := by
  simp only [counterStep, tick, if_neg notLast, if_neg noShort]

/-- While the block is not armed the count stays, but for the START that arms it and writes 0. -/
theorem count_of_unarmed {s t : State} (turn : currentTurn s ≠ .reset) (unarmed : s.run = false)
    (h : step s = .next t) : t.count = s.count ∨ t.run = true ∧ t.count = 0 := by
  rcases step_cases_of_no_reset turn h with
    ⟨armed, -⟩ | ⟨-, w, i, -, decoded, e⟩ | ⟨-, rfl⟩ | ⟨-, w, rest, i, -, decoded, e⟩ | ⟨-, -, -, rfl⟩
  · cases unarmed.symm.trans armed
  · obtain ⟨t', e', frame⟩ := exec_sequencer_frame (afterTurn s) (onlyClass_ok_iff.1 decoded).2
    rw [e] at e'; cases e'
    simp [frame]
  · simp
  · rcases exec_command_cases (onlyClass_ok_iff.1 decoded).2 e with
      ⟨color, -, -, rfl⟩ | ⟨color, -, rfl⟩ | ⟨color, -, -, rfl⟩
    · exact .inr ⟨rfl, rfl⟩
    · simp
    · simp
  · simp

/-- Settles O34: an armed COUNTER's turn is a tick, one of the three. -/
theorem tickCountsAndRaises : Obligations.TickCountsAndRaises := by
  refine ⟨fun s turn armed => ?_, fun s t turn unarmed => count_of_unarmed (by simp [turn]) unarmed⟩
  rw [step_counter turn armed, ← afterTurn_count s]
  exact ⟨fun last => congrArg _ (counterStep_rollover last),
    fun notLast short => congrArg _ (counterStep_short notLast short),
    fun notLast noShort => congrArg _ (counterStep_counts notLast noShort)⟩

/-- Settles O38: while SACT = 1 the step is SEQUENCER's, whose operations change none of this, or a tick, which only
raises flags. -/
theorem transmissionIsNeverInterrupted : Obligations.TransmissionIsNeverInterrupted := by
  intro s t active turn h
  rcases step_cases_of_no_reset turn h with
    ⟨-, rfl⟩ | ⟨-, w, i, -, decoded, e⟩ | ⟨take, -⟩ | ⟨ready, -⟩ | ⟨ready, -⟩
  · simpa using counterStep_flags (afterTurn s)
  · have sequencer := (onlyClass_ok_iff.1 decoded).2
    have hact := exec_sequencer_hact sequencer e
    obtain ⟨t', e', frame⟩ := exec_sequencer_frame (afterTurn s) sequencer
    rw [e] at e'; cases e'
    simpa [frame] using hact
  · exact absurd ⟨active, take⟩ (oneProcessorAgentIsEnabled s).1
  · exact absurd ready (not_hostEnabled_of_busy (.inl active))
  · exact absurd ready (not_hostEnabled_of_busy (.inl active))

end Sys2Proof.Machine
end

section
/-! SUPPORT. Ticks in a row (spec/60_exceptions.md R147): the count goes round the period, and each event is raised
where it passes that event's place. -/

namespace Sys2Proof.Machine

/-- The last of `n + 1` ticks. -/
theorem ticks_succ (n : Nat) (s : State) : ticks (n + 1) s = counterStep (ticks n s) := by
  induction n generalizing s with
  | zero => rfl
  | succ n ih => exact ih (counterStep s)

/-- Ticks leave everything but the count and the two event flags. -/
theorem ticks_eq (n : Nat) (s : State) :
    ticks n s = { s with count := (ticks n s).count, mcf := (ticks n s).mcf, ovf := (ticks n s).ovf } := by
  induction n with
  | zero => rfl
  | succ n ih =>
    rw [ticks_succ]
    obtain ⟨count, mcf, ovf, e⟩ := counterStep_eq (ticks n s)
    rw [e, ih]

/-- One tick below the period: the next count, and the flags as they were or by their event. -/
theorem counterStep_cycle {s : State} (bound : s.count < Config.periodTicks) :
    (counterStep s).count = (s.count + 1) % Config.periodTicks ∧
    ((counterStep s).mcf = true ↔ s.mcf = true ∨ (s.count + 1) % Config.periodTicks = Config.shortTicks) ∧
    ((counterStep s).ovf = true ↔ s.ovf = true ∨ (s.count + 1) % Config.periodTicks = 0) := by
  have pos := Config.shortTicks_pos
  by_cases last : s.count = Config.periodTicks - 1
  · have wraps : (s.count + 1) % Config.periodTicks = 0 := by
      rw [show s.count + 1 = Config.periodTicks by omega, Nat.mod_self]
    rw [counterStep_rollover last, wraps]
    simp [pos.ne]
  · have stays : (s.count + 1) % Config.periodTicks = s.count + 1 := Nat.mod_eq_of_lt (by omega)
    rw [stays]
    by_cases short : s.count + 1 = Config.shortTicks
    · rw [counterStep_short last short]
      simp [short, pos.ne']
    · rw [counterStep_counts last short]
      simp [short]

section
variable {s : State} (bound : s.count < Config.periodTicks)
include bound

theorem ticks_count (n : Nat) : (ticks n s).count = (s.count + n) % Config.periodTicks := by
  induction n with
  | zero => exact (Nat.mod_eq_of_lt bound).symm
  | succ n ih =>
    have below : (ticks n s).count < Config.periodTicks := ih ▸ Nat.mod_lt _ (by omega)
    rw [ticks_succ, (counterStep_cycle below).1, ih, Nat.mod_add_mod, Nat.add_assoc]

/-- The tick after `n` others raises an event exactly where the count comes to its place. -/
theorem ticks_succ_flags (n : Nat) :
    ((ticks (n + 1) s).mcf = true ↔
      (ticks n s).mcf = true ∨ (s.count + (n + 1)) % Config.periodTicks = Config.shortTicks) ∧
    ((ticks (n + 1) s).ovf = true ↔ (ticks n s).ovf = true ∨ (s.count + (n + 1)) % Config.periodTicks = 0) := by
  have count := ticks_count bound n
  have below : (ticks n s).count < Config.periodTicks := count ▸ Nat.mod_lt _ (by omega)
  have flags := (counterStep_cycle below).2
  rwa [count, Nat.mod_add_mod, Nat.add_assoc, ← ticks_succ] at flags

end

/-- Settles O35: the count goes round the period from 0. -/
theorem cycleLawOfTicks : Obligations.CycleLawOfTicks := by
  intro s n zero
  have bound : s.count < Config.periodTicks := zero ▸ Nat.zero_lt_of_lt Config.shortTicks_lt_periodTicks
  have count := ticks_count bound n
  have flags := ticks_succ_flags bound n
  rw [zero, Nat.zero_add] at count flags
  exact ⟨count, flags⟩

/-- Ticks that do not reach an event's place leave the flags. -/
theorem ticks_flags_of_no_event {s : State} {n : Nat} (bound : s.count + n < Config.periodTicks)
    (noShort : Config.shortTicks ≤ s.count ∨ s.count + n < Config.shortTicks) :
    (ticks n s).mcf = s.mcf ∧ (ticks n s).ovf = s.ovf := by
  induction n with
  | zero => exact ⟨rfl, rfl⟩
  | succ n ih =>
    obtain ⟨mcf, ovf⟩ := ih (by omega) (by omega)
    obtain ⟨short, rollover⟩ := ticks_succ_flags (s := s) (by omega) n
    rw [Nat.mod_eq_of_lt bound, mcf] at short
    rw [Nat.mod_eq_of_lt bound, ovf] at rollover
    exact ⟨Bool.eq_iff_iff.2 (short.trans (or_iff_left (by omega))),
      Bool.eq_iff_iff.2 (rollover.trans (or_iff_left (by omega)))⟩

/-- From count 0 the ticks to the compare value raise the short event alone. -/
theorem ticks_to_short_event {s : State} (zero : s.count = 0) :
    ticks Config.shortTicks s = { s with count := Config.shortTicks, mcf := true } := by
  have pos := Config.shortTicks_pos
  have less := Config.shortTicks_lt_periodTicks
  obtain ⟨n, last⟩ := Nat.exists_eq_succ_of_ne_zero pos.ne'
  obtain ⟨mcf, ovf⟩ := ticks_flags_of_no_event (s := s) (n := n) (by omega) (by omega)
  have count := ticks_count (s := s) (by omega) n
  rw [zero, Nat.zero_add, Nat.mod_eq_of_lt (by omega)] at count
  rw [last, ticks_succ, counterStep_short (by omega) (by omega), ticks_eq n s]
  simp [count, ovf]

/-- From the compare value the ticks to the end of the period raise the rollover event alone. -/
theorem ticks_to_rollover {s : State} (short : s.count = Config.shortTicks) :
    ticks (Config.periodTicks - Config.shortTicks) s = { s with count := 0, ovf := true } := by
  have less := Config.shortTicks_lt_periodTicks
  obtain ⟨n, last⟩ := Nat.exists_eq_succ_of_ne_zero (Nat.sub_pos_of_lt less).ne'
  obtain ⟨mcf, ovf⟩ := ticks_flags_of_no_event (s := s) (n := n) (by omega) (by omega)
  have count := ticks_count (s := s) (by omega) n
  rw [Nat.mod_eq_of_lt (by omega)] at count
  rw [last, ticks_succ, counterStep_rollover (by omega), ticks_eq n s]
  simp [mcf]

end Sys2Proof.Machine
end

section
/-! SUPPORT. Events served in turn (spec/60_exceptions.md R138, R148): runs of ticks alone, and an entry with its
transmission undisturbed, each with its whole state. -/

namespace Sys2Proof.Machine

/-- A tick does not read the turns. -/
theorem counterStep_withTurns (turns : List Turn) (s : State) :
    counterStep { s with turns := turns } = { counterStep s with turns := turns } := by
  simp only [counterStep, tick, apply_ite (fun s : State => { s with turns := turns })]

/-- Turns of an armed COUNTER are ticks. -/
theorem runSteps_ticks {n : Nat} {s : State} {rest : List Turn} (armed : s.run = true)
    (listed : s.turns = List.replicate n .counter ++ rest) :
    runSteps n s = .next (ticks n { s with turns := rest }) := by
  induction n generalizing s with
  | zero => exact congrArg _ (by rw [← show s.turns = rest from listed]; rfl)
  | succ n ih =>
    obtain ⟨turn, later⟩ := turn_cons (s := s) listed
    have ticked := step_counter turn armed
    rw [later, counterStep_withTurns] at ticked
    rw [runSteps_succ n ticked, ih (by simpa using armed) rfl, ← counterStep_withTurns]
    rfl

/-- Turns of the processor side alone take SEQUENCER through its own run, and nothing else moves. -/
theorem SequencerRun.runSteps_processor {n : Nat} {s t u : State} (run : SequencerRun n s t) {rest : List Turn}
    (listed : u.turns = List.replicate n .processor ++ rest) :
    runSteps n (amid u s) = .next (amid { u with turns := rest } t) := by
  induction run generalizing u with
  | refl s => exact congrArg _ (by rw [← show u.turns = rest from listed])
  | step active first later ih =>
    rw [runSteps_succ _ (step_amid_side listed (.inl rfl) active first)]
    exact ih (u := { u with turns := List.replicate _ .processor ++ rest }) rfl

/-- The state an event's service leaves: its colour has been transmitted, and the handler left (R141). -/
def served (color : Color) (s : State) : State :=
  { s with
    c := color, t := color.getLsbD 0, m := 0#24, imsave := s.im, pin := false, sact := false, spc := 0#5, dly := 0
    hact := false, trace := s.trace ++ train Config.unitNops color }

/-- An undisturbed transmission, with its whole state. -/
theorem runSteps_startTx {color : Color} {s : State} {rest : List Turn} (rom : s.rom = [])
    (listed : s.turns = List.replicate (transmissionSteps Config.unitNops color) .processor ++ rest) :
    runSteps (transmissionSteps Config.unitNops color) (startTx color s) =
      .next (served color { s with turns := rest }) :=
  (sequencerRun_transmission (s := startTx color s) rfl rom rfl).runSteps_processor (u := startTx color s) listed

/-- An undisturbed service, with its whole state: whichever event the entry services, its colour is transmitted. -/
theorem runSteps_service {color : Color} {mcf ovf : Bool} {s : State} {rest : List Turn} (rom : s.rom = [])
    (take : takeable s = true)
    (listed : s.turns = List.replicate (1 + transmissionSteps Config.unitNops color) .processor ++ rest)
    (entry : ∀ turns, interruptEntry { s with turns := turns } =
      startTx color { s with turns := turns, hact := true, mcf := mcf, ovf := ovf }) :
    runSteps (1 + transmissionSteps Config.unitNops color) s =
      .next (served color { s with turns := rest, mcf := mcf, ovf := ovf }) := by
  rw [Nat.add_comm] at listed ⊢
  obtain ⟨turn, later⟩ := turn_cons (s := s) listed
  have entered := step_entry (.inl turn) take
  rw [later, entry] at entered
  rw [runSteps_succ _ entered]
  exact runSteps_startTx rom rfl

/-- The short event is served with the idle colour. -/
theorem runSteps_service_short {color : Color} {s : State} {rest : List Turn} (rom : s.rom = [])
    (take : takeable s = true) (mcf : s.mcf = true) (idle : s.idle.extractLsb' 0 24 = color)
    (listed : s.turns = List.replicate (1 + transmissionSteps Config.unitNops color) .processor ++ rest) :
    runSteps (1 + transmissionSteps Config.unitNops color) s =
      .next (served color { s with turns := rest, mcf := false }) := by
  refine runSteps_service (ovf := s.ovf) rom take listed fun turns => ?_
  rw [interruptEntry_of_mcf (s := { s with turns }) mcf, idleColor_eq, idle]

/-- The rollover event is served with white, where no short event waits. -/
theorem runSteps_service_rollover {s : State} {rest : List Turn} (rom : s.rom = []) (take : takeable s = true)
    (noMcf : s.mcf = false) (ovf : s.ovf = true)
    (listed : s.turns = List.replicate (1 + transmissionSteps Config.unitNops Config.white) .processor ++ rest) :
    runSteps (1 + transmissionSteps Config.unitNops Config.white) s =
      .next (served Config.white { s with turns := rest, ovf := false }) :=
  runSteps_service (mcf := s.mcf) rom take listed fun turns => interruptEntry_of_ovf (s := { s with turns }) noMcf ovf

/-- Armed, with nothing in flight and interrupts open: an event can be taken when it comes. -/
structure ReadyForEvents (s : State) : Prop where
  romIsListing : s.rom = []
  armed : s.run = true
  mcen : s.mcen = true
  ovfen : s.ovfen = true
  unmasked : s.im = false
  thread : s.hact = false
  inactive : s.sact = false

theorem SafeState.readyForEvents {s : State} (safe : SafeState s) (armed : s.run = true) (unmasked : s.im = false)
    (thread : s.hact = false) (inactive : s.sact = false) : ReadyForEvents s := by
  obtain ⟨-, mcen, ovfen⟩ := safe.armed armed
  exact ⟨safe.romIsListing, armed, mcen, ovfen, unmasked, thread, inactive⟩

section
variable {s : State} (ready : ReadyForEvents s)
include ready

theorem ReadyForEvents.irq_eq : irq s = (s.mcf || s.ovf) := by
  simp [irq, ready.mcen, ready.ovfen]

theorem ReadyForEvents.takeable (event : s.mcf = true ∨ s.ovf = true) : takeable s = true :=
  (takeable_iff s).2 ⟨by simpa [ready.irq_eq] using event, ready.unmasked, ready.thread, ready.inactive⟩

theorem ReadyForEvents.quiescent_iff : quiescent s = true ↔ s.mcf = false ∧ s.ovf = false := by
  simp [quiescent, ready.irq_eq, ready.inactive, ready.thread]

/-- A served event leaves the block ready for the next, whatever the turns, the count and the flags. -/
theorem ReadyForEvents.served (color : Color) (turns : List Turn) (count : Nat) (mcf ovf : Bool) :
    ReadyForEvents (served color { s with turns, count, mcf, ovf }) :=
  { ready with thread := rfl, inactive := rfl }

/-- From count 0 to the compare value, and the short event served. -/
theorem ReadyForEvents.runSteps_short {color : Color} {rest : List Turn} (zero : s.count = 0)
    (idle : s.idle.extractLsb' 0 24 = color)
    (listed : s.turns = List.replicate Config.shortTicks .counter ++
      (List.replicate (1 + transmissionSteps Config.unitNops color) .processor ++ rest)) :
    runSteps (Config.shortTicks + (1 + transmissionSteps Config.unitNops color)) s =
      .next (Machine.served color { s with turns := rest, count := Config.shortTicks, mcf := false }) := by
  have ticked := runSteps_ticks ready.armed listed
  rw [ticks_to_short_event (by exact zero)] at ticked
  rw [runSteps_add ticked]
  exact runSteps_service_short ready.romIsListing (ReadyForEvents.takeable { ready with } (.inl rfl)) rfl idle rfl

/-- From the compare value to the end of the period, and the rollover event served. -/
theorem ReadyForEvents.runSteps_rollover {rest : List Turn} (short : s.count = Config.shortTicks)
    (noMcf : s.mcf = false)
    (listed : s.turns = List.replicate (Config.periodTicks - Config.shortTicks) .counter ++
      (List.replicate (1 + transmissionSteps Config.unitNops Config.white) .processor ++ rest)) :
    runSteps (Config.periodTicks - Config.shortTicks + (1 + transmissionSteps Config.unitNops Config.white)) s =
      .next (Machine.served Config.white { s with turns := rest, count := 0, ovf := false }) := by
  have ticked := runSteps_ticks ready.armed listed
  rw [ticks_to_rollover (by exact short)] at ticked
  rw [runSteps_add ticked]
  exact runSteps_service_rollover ready.romIsListing (ReadyForEvents.takeable { ready with } (.inr rfl)) noMcf rfl rfl

end

/-- Settles O37: the short event's service leaves the rollover flag, and with it an interrupt that can be taken. -/
theorem bothFlagsAreServedShortFirst : Obligations.BothFlagsAreServedShortFirst := by
  intro s rest safe take mcf ovf listed
  obtain ⟨-, unmasked, thread, inactive⟩ := (takeable_iff s).1 take
  have ready := safe.readyForEvents (safe.run_of_event (.inl mcf)) unmasked thread inactive
  rw [List.append_assoc] at listed
  have short := runSteps_service_short ready.romIsListing take mcf rfl listed
  have ready' := ready.served (s.idle.extractLsb' 0 24)
    (List.replicate (1 + transmissionSteps Config.unitNops Config.white) .processor ++ rest) s.count false s.ovf
  have again := ready'.takeable (.inr ovf)
  have rollover := runSteps_service_rollover ready'.romIsListing again rfl ovf rfl
  exact ⟨_, _, short, again, rfl, ovf, rfl, rfl, rollover, rfl, rfl, rfl, rfl, rfl, rfl, rfl⟩

/-- Settles O36: each event comes alone, after its ticks, and its service leaves the block ready for the next. -/
theorem onePeriodFlashesIdleThenWhite : Obligations.OnePeriodFlashesIdleThenWhite := by
  intro s rest safe armed quiet unmasked zero _ listed
  have idle := quiet
  simp only [quiescent, Bool.and_eq_true, Bool.not_eq_true'] at idle
  obtain ⟨⟨inactive, thread⟩, -⟩ := idle
  have ready := safe.readyForEvents armed unmasked thread inactive
  obtain ⟨-, noOvf⟩ := ready.quiescent_iff.1 quiet
  simp only [List.append_assoc] at listed
  have short := ready.runSteps_short zero rfl listed
  have ready' := ready.served (s.idle.extractLsb' 0 24)
    (List.replicate (Config.periodTicks - Config.shortTicks) .counter ++
      (List.replicate (1 + transmissionSteps Config.unitNops Config.white) .processor ++ rest))
    Config.shortTicks false s.ovf
  have rollover := ready'.runSteps_rollover rfl rfl rfl
  have ready'' := ready'.served Config.white rest 0 false false
  exact ⟨_, _, (runSteps_add short).trans rollover, rfl, ready''.quiescent_iff.2 ⟨rfl, rfl⟩, unmasked, rfl, rfl⟩

end Sys2Proof.Machine
end

section
/-! SUPPORT. Reset (spec/70_reset_and_hazards.md R160), and the block before START (R162): HOST alone can step, and
where it issues nothing only the turns move. -/

namespace Sys2Proof.Machine

/-- Settles O51: a reset turn is `resetStep`, which leaves only the ROM and the model's own fields. -/
theorem resetMakesTheBlockInert : Obligations.ResetMakesTheBlockInert := fun s turn =>
  ⟨_, step_reset turn, rfl, rfl, rfl, rfl, rfl, rfl, rfl, rfl, rfl, rfl, rfl, rfl, rfl, rfl, rfl, afterTurn_rom s⟩

/-- The block is not armed, nothing is in flight or pending, and no reset is listed. -/
structure BeforeStart (s : State) : Prop where
  unarmed : s.run = false
  inactive : s.sact = false
  thread : s.hact = false
  noIrq : irq s = false
  noReset : .reset ∉ s.turns

namespace BeforeStart

variable {s : State} (before : BeforeStart s)
include before

theorem processorSide : ProcessorSide s := by
  rcases turn_cases s with reset | ⟨-, armed⟩ | side
  · exact absurd reset (currentTurn_ne_reset before.noReset)
  · cases before.unarmed.symm.trans armed
  · exact side

theorem hostEnabled : hostEnabled s = true :=
  (hostEnabled_iff s).2 ⟨before.inactive, before.thread, by simp [takeable, before.noIrq]⟩

theorem afterTurn : BeforeStart (afterTurn s) where
  unarmed := (afterTurn_run s).trans before.unarmed
  inactive := (afterTurn_sact s).trans before.inactive
  thread := (afterTurn_hact s).trans before.thread
  noIrq := by simpa [irq] using before.noIrq
  noReset listed := before.noReset (afterTurn_turns_subset s _ listed)

/-- A HOST that issues nothing lets the turn go by (R162). -/
theorem step_silent (silent : s.commands = []) : step s = .next (Machine.afterTurn s) := by
  have ready := before.afterTurn.hostEnabled
  obtain ⟨inactive, -, noTake⟩ := (hostEnabled_iff _).1 ready
  have turnOver : hostTurn (Machine.afterTurn s) = .next (Machine.afterTurn s) := by
    simp [hostTurn, silent, before.unarmed]
  rw [step_processorSide before.processorSide, processorStep, sequencerEnabled, inactive, noTake, ready, turnOver]
  rfl

/-- Any number of turns goes by so. -/
theorem runSteps_silent (silent : s.commands = []) (n : Nat) :
    ∃ turns draws spent, runSteps n s = .next { s with turns := turns, draws := draws, spent := spent } := by
  induction n generalizing s with
  | zero => exact ⟨_, _, _, rfl⟩
  | succ n ih =>
    obtain ⟨turns, draws, spent, e⟩ := ih before.afterTurn ((afterTurn_commands s).trans silent)
    obtain ⟨_, _, _, taken⟩ := afterTurn_eq s
    refine ⟨turns, draws, spent, ?_⟩
    rw [runSteps_succ n (before.step_silent silent), e, taken]

end BeforeStart

/-- Settles O52. -/
theorem nothingMovesBeforeStart : Obligations.NothingMovesBeforeStart :=
  fun _ n unarmed inactive thread noIrq silent noReset =>
    BeforeStart.runSteps_silent ⟨unarmed, inactive, thread, noIrq, noReset⟩ silent n

end Sys2Proof.Machine
end

section
/-! SUPPORT. START at the launch and after it (spec/70_reset_and_hazards.md R165, R181; spec/40_commands.md R91): the
block stays armed until a reset, and an armed block refuses START. -/

namespace Sys2Proof.Machine

/-- At a ready port HOST performs the command its next word spells. -/
theorem step_command {s : State} {i : Instr} {rest : List Word} (side : ProcessorSide s)
    (ready : hostEnabled s = true) (command : i.isCommand = true) (legal : i.WellFormed)
    (words : s.commands = encode i :: rest) : step s = exec i { afterTurn s with commands := rest } :=
  stepRunsHostCommand s _ rest i side ready words (decodeCommand_of_decode (decodeOfEncode i legal) command)

/-- Of the first `n + 1` listed turns a step takes the first and leaves the others. -/
theorem noReset_take_succ {s t : State} {n : Nat} (noReset : .reset ∉ s.turns.take (n + 1))
    (h : step s = .next t) : currentTurn s ≠ .reset ∧ .reset ∉ t.turns.take n := by
  rw [(step_turns h).1]
  cases listed : s.turns with
  | nil => exact ⟨currentTurn_ne_reset (by simp [listed]), by simp [afterTurn, listed]⟩
  | cons turn rest =>
    obtain ⟨now, later⟩ := turn_cons listed
    rw [listed, List.take_succ_cons, List.mem_cons, not_or] at noReset
    rw [now, later]
    exact ⟨Ne.symm noReset.1, noReset.2⟩

/-- RUN outlasts every run in which no reset is taken. -/
theorem runSteps_keeps_run {s t : State} {n : Nat} (armed : s.run = true) (noReset : .reset ∉ s.turns.take n)
    (h : runSteps n s = .next t) : t.run = true := by
  induction n generalizing s with
  | zero => cases h; exact armed
  | succ n ih =>
    obtain ⟨s', first, later⟩ := coreRun_next_inv (M := Sys2Proof.core) h
    obtain ⟨turn, noReset'⟩ := noReset_take_succ noReset first
    obtain ⟨stays, -⟩ := armedStateOutlastsEveryStep s s' turn first
    exact ih (stays armed) noReset' later

/-- Settles O55: START's next state is R91's, and RUN, which it sets, is what a later START is refused for. -/
theorem startFromTheLaunchArmsTheBlock : Obligations.StartFromTheLaunchArmsTheBlock := by
  intro p s color rest launch side ready words
  have started : step s = _ := (step_command side ready rfl rfl words).trans
    ((startArmsTheBlock color _).1 ((afterTurn_run s).trans launch.notStarted))
  refine ⟨_, started, rfl, rfl, rfl, rfl, rfl, rfl, rfl, rfl, rfl, rfl, fun n u noReset reached color' => ?_⟩
  exact (startArmsTheBlock color' u).2 (runSteps_keeps_run rfl noReset reached)

end Sys2Proof.Machine
end

section
/-! SUPPORT. Endless runs exist (spec/70_reset_and_hazards.md R181; assumption 19): where every state of a kind has,
whatever comes from outside before it, a step to a state of that kind, the steps go on for ever. -/

namespace Sys2Proof.Machine

/-- The states that follow `s` where `after` gives the next one at each moment. -/
def statesFrom (after : Nat → State → State) (s : State) : Nat → State
  | 0 => s
  | n + 1 => after n (statesFrom after s n)

theorem exists_endlessRun {input : Nat → Input} {kind : State → Prop} {s : State} (start : kind s)
    (next : ∀ n u, kind u → ∃ v, step (receive (input n) u) = .next v ∧ kind v) :
    ∃ run, run 0 = s ∧ EndlessRun input run ∧ ∀ n, kind (run n) := by
  have : Nonempty State := ⟨s⟩
  choose! after steps kept using next
  have always (n : Nat) : kind (statesFrom after s n) := by
    induction n with
    | zero => exact start
    | succ n ih => exact kept n _ ih
  exact ⟨statesFrom after s, rfl, fun n => steps n _ (always n), always⟩

/-! Any SETIDLE words and resets. -/

/-- Nothing that comes from outside is the invariants'. -/
theorem SafeState.receive {s : State} (safe : SafeState s) (input : Input) : SafeState (receive input s) :=
  { safe with }

/-- A step puts no word before HOST. -/
theorem step_commands_subset {s t : State} (h : step s = .next t) : t.commands ⊆ s.commands := by
  rcases step_cases h with ⟨-, rfl⟩ | ⟨-, rfl⟩ | ⟨-, w, i, -, decoded, e⟩ | ⟨-, rfl⟩ |
    ⟨-, w, rest, i, words, decoded, e⟩ | ⟨-, -, -, rfl⟩
  · simp
  · simp
  · obtain ⟨t', e', frame⟩ := exec_sequencer_frame (afterTurn s) (onlyClass_ok_iff.1 decoded).2
    rw [e] at e'; cases e'
    simp [frame]
  · simp
  · rw [words]
    rcases exec_command_cases (onlyClass_ok_iff.1 decoded).2 e with
      ⟨color, -, -, rfl⟩ | ⟨color, -, rfl⟩ | ⟨color, -, -, rfl⟩ <;> exact List.subset_cons_self w rest
  · simp

/-- Every word spells SETIDLE. -/
def AllSetIdle (words : List Word) : Prop := ∀ w ∈ words, ∃ color, w = encode (.setIdle color)

/-- A safe state whose waiting words all spell SETIDLE has a next state: no HOST step is refused. -/
theorem SafeState.exists_step_of_allSetIdle {s : State} (safe : SafeState s) (all : AllSetIdle s.commands) :
    ∃ t, step s = .next t := by
  rcases safe.exists_step_or_hostStep with next | ⟨-, w, rest, words, e⟩
  · exact next
  · obtain ⟨color, rfl⟩ := all w (words ▸ List.mem_cons_self)
    exact ⟨_, e.trans (hostStep_of_decodeCommand _
      (decodeCommand_of_decode (decodeOfEncode (.setIdle color) rfl) rfl))⟩

/-- Settles O58: the safe states whose waiting words all spell SETIDLE are such a kind, and a reset from outside is
taken in its own step. -/
theorem endlessWordsAndResetsAreReceived : Obligations.EndlessWordsAndResetsAreReceived := by
  intro input s safe waiting coming
  obtain ⟨run, first, endless, -⟩ := exists_endlessRun (input := input)
    (kind := fun u => SafeState u ∧ AllSetIdle u.commands) ⟨safe, waiting⟩ fun n u ⟨safe, waiting⟩ => by
      have safe' := safe.receive (input n)
      have all : AllSetIdle (receive (input n) u).commands :=
        fun w mem => (List.mem_append.1 mem).elim (waiting w) (coming n w)
      obtain ⟨v, e⟩ := safe'.exists_step_of_allSetIdle all
      exact ⟨v, e, stepKeepsTheInvariants _ v safe' e, fun w mem => all w (step_commands_subset e mem)⟩
  refine ⟨run, first, endless, fun n reset => ?_⟩
  exact Host.Outcome.next.inj ((endless n).symm.trans (step_receive_reset (run n) reset))

/-! SETIDLE after SETIDLE before START. -/

/-- Before each step HOST gets the SETIDLE word of that moment's colour. -/
def setIdleInput (color : Nat → Color) (n : Nat) : Input :=
  { words := [encode (.setIdle (color n))], reset := false }

/-- Before START, with no word waiting, a SETIDLE from outside is HOST's step, writes its colour, and leaves the block
so. -/
theorem BeforeStart.step_setIdle {s : State} (before : BeforeStart s) (silent : s.commands = []) (color : Nat → Color)
    (n : Nat) :
    stepper (receive (setIdleInput color n) s) = some .host ∧
    ∃ t, step (receive (setIdleInput color n) s) = .next t ∧ t.idle = (color n).zeroExtend 32 ∧
      BeforeStart t ∧ t.commands = [] := by
  have before' : BeforeStart (receive (setIdleInput color n) s) := { before with }
  have words : (receive (setIdleInput color n) s).commands = [encode (.setIdle (color n))] := by
    rw [receive_commands, silent]; rfl
  refine ⟨?_, _, step_command before'.processorSide before'.hostEnabled rfl rfl words,
    congrArg State.idle (writeIdle_colorWord (color n) _), { before'.afterTurn with }, rfl⟩
  obtain ⟨inactive, -, noTake⟩ := (hostEnabled_iff _).1 before'.hostEnabled
  rw [stepper_processorSide before'.processorSide, processorStepper, sequencerEnabled, inactive, noTake,
    before'.hostEnabled, words]
  rfl

/-- Settles O59: before START with no word waiting is such a kind. -/
theorem hostMaySetIdleForEver : Obligations.HostMaySetIdleForEver := by
  intro color s unarmed inactive thread noIrq silent noReset
  obtain ⟨run, first, endless, kept⟩ := exists_endlessRun (input := setIdleInput color)
    (kind := fun u => BeforeStart u ∧ u.commands = []) ⟨⟨unarmed, inactive, thread, noIrq, noReset⟩, silent⟩
    fun n u ⟨before, silent⟩ =>
      have ⟨_, t, e, _, kept⟩ := before.step_setIdle silent color n
      ⟨t, e, kept⟩
  refine ⟨setIdleInput color, run, fun _ => rfl, first, endless, fun n => ?_⟩
  obtain ⟨before, silent⟩ := kept n
  obtain ⟨who, t, e, idle, -⟩ := before.step_setIdle silent color n
  cases (endless n).symm.trans e
  exact ⟨who, idle⟩

end Sys2Proof.Machine
end

section
/-! The pin and the mask at the places where the program has PINHI, PINLO and TST (spec/41_sequencer.md R105, R106,
R110, R117). -/

namespace Sys2Proof.Machine

/-- In a safe state the operation the word at SPC spells is the listing's. -/
theorem SafeState.listingAt_of_romRead {s : State} (safe : SafeState s) {w : Word} {i : Instr}
    (fetched : romRead s s.spc.toNat = some w) (decoded : decodeRom w = .ok i) : listingAt s.spc.toNat = i := by
  have inRom : s.spc.toNat < Config.romLen := Nat.lt_succ_of_le safe.indexBound
  rw [romRead, if_pos inRom, safe.romIsListing] at fetched
  have word : romDefault s.spc.toNat = w := Option.some.inj fetched
  rw [← word, decodeRom_listing _ inRom] at decoded
  exact Except.ok.inj decoded

/-! Where the listing has each of the three operations. -/

theorem index_of_listingAt_pinHi {i : Nat} (h : listingAt i = .pinHi) : i = 4 ∨ i = 9 := by
  unfold listingAt at h
  split at h <;> simp at h ⊢

theorem index_of_listingAt_pinLo {i : Nat} (h : listingAt i = .pinLo) : i = 6 ∨ i = 11 := by
  unfold listingAt at h
  split at h <;> simp at h ⊢

theorem index_of_listingAt_tst {i : Nat} (h : listingAt i = .tst) : i = 2 := by
  unfold listingAt at h
  split at h <;> simp at h ⊢

theorem OneHot.ne_zero {m : Color} (one : OneHot m) : m ≠ 0#24 := by
  rintro rfl
  exact absurd one.toNat_pos (by decide)

/-- Settles O21: the listing says at which places each operation stands, and the invariant what the pin and the mask
are there. -/
theorem programMeetsNoCornerCase : Obligations.ProgramMeetsNoCornerCase := by
  intro s safe active
  have place := safe.inProgram active
  refine ⟨fun fetched => ?_, fun fetched => ?_, fun fetched => ?_⟩
  · rcases index_of_listingAt_pinHi (safe.listingAt_of_romRead fetched rfl) with index | index <;>
      rw [place.pin, index] <;> rfl
  · rcases index_of_listingAt_pinLo (safe.listingAt_of_romRead fetched rfl) with index | index <;>
      rw [place.pin, index] <;> rfl
  · have index := index_of_listingAt_tst (safe.listingAt_of_romRead fetched rfl)
    have one : OneHot s.m := place.oneHot (by omega) (by omega)
    exact one.ne_zero

end Sys2Proof.Machine
end
